-- ==== Sys2Proof/Word.lean ====
section
/-! DEFINITION. Bytes, words and the wrap of the exact integers onto words (spec/00_scope.md R6, R10, R11). -/

namespace Sys2Proof

/-- A byte: an 8-bit pattern, read as `0 .. 255` (R10, R53). -/
abbrev Byte := BitVec 8

/-- A word: 4 bytes, a two's-complement 32-bit integer (R6, R11). Its signed value is `toInt`
(`signed32`), its value in `0 .. 2^32 - 1` is `toNat` (`unsigned32`). -/
abbrev Word := BitVec 32

/-- `wrap32(x)` (R11): the word congruent to `x` modulo `2^32`. -/
def wrap32 (x : Int) : Word := BitVec.ofInt 32 x

end Sys2Proof
end

