-- ==== Sys2Proof/Machine/Codec.lean ====
section
/-! DEFINITION. The word codec: little-endian, 4 bytes, two's complement (spec/20_memory.md R54, R55). -/

namespace Sys2Proof

/-- `Decode(b0, b1, b2, b3)` of four bytes in address order (R54). -/
def decodeWord (b0 b1 b2 b3 : Byte) : Word :=
  BitVec.ofNat 32 (b0.toNat + 256 * b1.toNat + 65536 * b2.toNat + 16777216 * b3.toNat)

/-- `Encode(v)`: the bytes `u[7:0], u[15:8], u[23:16], u[31:24]`, in address order (R55). -/
def encodeWord (v : Word) : List Byte :=
  [v.extractLsb' 0 8, v.extractLsb' 8 8, v.extractLsb' 16 8, v.extractLsb' 24 8]

/-- `Decode` of a byte run, for exactly four bytes: it never reads past what it is given (R54). -/
def decodeBytes : List Byte → Option Word
  | [b0, b1, b2, b3] => some (decodeWord b0 b1 b2 b3)
  | _ => none

end Sys2Proof
end

