-- ==== Sys2Proof/Config.lean ====
section
/-! DEFINITION. The implementation parameters of spec/00_scope.md section 3 (R5, R7, R8), as plain
data. The word width and the byte order are fixed (R6) and are no parameters. The spec leaves no
value free, so there is no free value here. -/

namespace Sys2Proof

/-- The 33 mnemonics of the table of R84, in its order. -/
inductive Mnemonic where
  | nop | push | pop | const | load | store | add | sub | mul | div | mod | call | ret | dup | swap
  | cmp | test | jmp | jz | jnz | jbz | jaz | jl | jle | je | jne | ja | jae
  | printInt | printString | readInt | readString | halt
deriving DecidableEq, Repr

/-- `OPCODE_MAP` (R8): the opcode byte of each of the 33 mnemonics. -/
structure OpcodeMap where
  nop : Byte
  push : Byte
  pop : Byte
  const : Byte
  load : Byte
  store : Byte
  add : Byte
  sub : Byte
  mul : Byte
  div : Byte
  mod : Byte
  call : Byte
  ret : Byte
  dup : Byte
  swap : Byte
  cmp : Byte
  test : Byte
  jmp : Byte
  jz : Byte
  jnz : Byte
  jbz : Byte
  jaz : Byte
  jl : Byte
  jle : Byte
  je : Byte
  jne : Byte
  ja : Byte
  jae : Byte
  printInt : Byte
  printString : Byte
  readInt : Byte
  readString : Byte
  halt : Byte
deriving DecidableEq, Repr

/-- The parameters of one instance, chosen by the host when it creates the instance (R5, R7, R8;
spec/70_reset_and_hazards.md R236). -/
structure Config where
  /-- `C`, the tape capacity in bytes (R5). -/
  tapeCapacity : Nat
  /-- `STACK_CAPACITY` (R7): `none` is `unbounded`. -/
  stackCapacity : Option Nat
  /-- `OPCODE_MAP` (R8). -/
  opcodeMap : OpcodeMap
deriving DecidableEq, Repr

end Sys2Proof
end

