-- ==== Sys2Proof/Syntax.lean ====
section
/-! DEFINITION. The instructions: one constructor per row of spec/opcode_table.json, in the table's
order (spec/30_encoding.md R84). -/

namespace Sys2Proof

/-- The closed set of 33 instructions (spec/00_scope.md R1). The argument of a format-`I`
instruction is its immediate, a full signed word (R82): the value pushed by PUSH and CONST, the
absolute target address of a jump (R83). -/
inductive Instr where
  | nop
  | push (imm : Word)
  | pop
  | const (imm : Word)
  | load
  | store
  | add
  | sub
  | mul
  | div
  | mod
  | call
  | ret
  | dup
  | swap
  | cmp
  | test
  | jmp (imm : Word)
  | jz (imm : Word)
  | jnz (imm : Word)
  | jbz (imm : Word)
  | jaz (imm : Word)
  | jl (imm : Word)
  | jle (imm : Word)
  | je (imm : Word)
  | jne (imm : Word)
  | ja (imm : Word)
  | jae (imm : Word)
  | printInt
  | printString
  | readInt
  | readString
  | halt
deriving DecidableEq, Repr

end Sys2Proof
end

