-- ==== Sys2Proof/Machine/OpcodeTable.lean ====
section
/-! DEFINITION. The operation table (spec/30_encoding.md R84, R86, R87; spec/10_state.md R34): each
mnemonic's format, length, pops and pushes; the default opcode map and the default parameters. -/

namespace Sys2Proof

/-- The mnemonics in the order of the table of R84. -/
def Mnemonic.all : List Mnemonic :=
  [.nop, .push, .pop, .const, .load, .store, .add, .sub, .mul, .div, .mod] ++
  [.call, .ret, .dup, .swap, .cmp, .test] ++
  [.jmp, .jz, .jnz, .jbz, .jaz, .jl, .jle, .je, .jne, .ja, .jae] ++
  [.printInt, .printString, .readInt, .readString, .halt]

/-- The two instruction formats (R80). -/
inductive Format where
  /-- Opcode byte alone (R81). -/
  | n
  /-- Opcode byte and a 4-byte immediate (R82). -/
  | i
deriving DecidableEq, Repr

/-- The length in bytes of an instruction of a format (R80). -/
def Format.length : Format → Nat
  | .n => 1
  | .i => 5

/-- The format column of R84. -/
def Mnemonic.format : Mnemonic → Format
  | .push | .const => .i
  | .jmp | .jz | .jnz | .jbz | .jaz | .jl | .jle | .je | .jne | .ja | .jae => .i
  | .nop | .pop | .load | .store | .add | .sub | .mul | .div | .mod | .call | .ret | .dup | .swap
  | .cmp | .test | .printInt | .printString | .readInt | .readString | .halt => .n

/-- The pops column of R84: the depth the instruction needs. -/
def Mnemonic.pops : Mnemonic → Nat
  | .pop | .load | .call | .ret | .dup | .test | .printInt => 1
  | .store | .add | .sub | .mul | .div | .mod | .swap | .cmp | .printString | .readString => 2
  | .nop | .push | .const | .readInt | .halt => 0
  | .jmp | .jz | .jnz | .jbz | .jaz | .jl | .jle | .je | .jne | .ja | .jae => 0

/-- The pushes column of R84: the number of words that stand in the place of those popped. -/
def Mnemonic.pushes : Mnemonic → Nat
  | .push | .const | .load | .add | .sub | .mul | .div | .mod | .call | .readInt | .readString => 1
  | .dup | .swap => 2
  | .nop | .pop | .store | .ret | .cmp | .test | .printInt | .printString | .halt => 0
  | .jmp | .jz | .jnz | .jbz | .jaz | .jl | .jle | .je | .jne | .ja | .jae => 0

/-- An entry of the operation table (R87). -/
structure Entry where
  mnemonic : Mnemonic
  format : Format
  length : Nat
  pops : Nat
  pushes : Nat
deriving DecidableEq, Repr

/-- The entry of a mnemonic: its row of R84. -/
def Mnemonic.entry (k : Mnemonic) : Entry where
  mnemonic := k
  format := k.format
  length := k.format.length
  pops := k.pops
  pushes := k.pushes

/-- The byte value of a mnemonic under a map (R8). -/
def OpcodeMap.byteOf (m : OpcodeMap) : Mnemonic → Byte
  | .nop => m.nop
  | .push => m.push
  | .pop => m.pop
  | .const => m.const
  | .load => m.load
  | .store => m.store
  | .add => m.add
  | .sub => m.sub
  | .mul => m.mul
  | .div => m.div
  | .mod => m.mod
  | .call => m.call
  | .ret => m.ret
  | .dup => m.dup
  | .swap => m.swap
  | .cmp => m.cmp
  | .test => m.test
  | .jmp => m.jmp
  | .jz => m.jz
  | .jnz => m.jnz
  | .jbz => m.jbz
  | .jaz => m.jaz
  | .jl => m.jl
  | .jle => m.jle
  | .je => m.je
  | .jne => m.jne
  | .ja => m.ja
  | .jae => m.jae
  | .printInt => m.printInt
  | .printString => m.printString
  | .readInt => m.readInt
  | .readString => m.readString
  | .halt => m.halt

/-- The decoder's table `Lookup : u8 -> Entry or Unknown` (R85, R87): the entry of the mnemonic
whose byte is `op`, none where no mnemonic has it. (Under a map that gives one byte to two
mnemonics, which R8 excludes, the first in table order: DESIGN CHOICE, log 11, unsafe only there.) -/
def OpcodeMap.lookup (m : OpcodeMap) (op : Byte) : Option Entry :=
  (Mnemonic.all.find? (fun k => m.byteOf k == op)).map Mnemonic.entry

/-- The default `OPCODE_MAP`: the opcode column of R84. -/
def defaultOpcodeMap : OpcodeMap where
  nop := 0x00
  push := 0x01
  pop := 0x02
  const := 0x03
  load := 0x04
  store := 0x05
  add := 0x06
  sub := 0x07
  mul := 0x08
  div := 0x09
  mod := 0x0A
  call := 0x0B
  ret := 0x0C
  dup := 0x0D
  swap := 0x0E
  cmp := 0x0F
  test := 0x10
  jmp := 0x11
  jz := 0x12
  jnz := 0x13
  jbz := 0x14
  jaz := 0x15
  jl := 0x16
  jle := 0x17
  je := 0x18
  jne := 0x19
  ja := 0x1A
  jae := 0x1B
  printInt := 0x1C
  printString := 0x1D
  readInt := 0x1E
  readString := 0x1F
  halt := 0x20

/-- The default parameters (R5, R7, R8). -/
def Config.default : Config where
  tapeCapacity := 16384
  stackCapacity := none
  opcodeMap := defaultOpcodeMap

/-- The mnemonic of an instruction. -/
def Instr.mnemonic : Instr → Mnemonic
  | .nop => .nop
  | .push _ => .push
  | .pop => .pop
  | .const _ => .const
  | .load => .load
  | .store => .store
  | .add => .add
  | .sub => .sub
  | .mul => .mul
  | .div => .div
  | .mod => .mod
  | .call => .call
  | .ret => .ret
  | .dup => .dup
  | .swap => .swap
  | .cmp => .cmp
  | .test => .test
  | .jmp _ => .jmp
  | .jz _ => .jz
  | .jnz _ => .jnz
  | .jbz _ => .jbz
  | .jaz _ => .jaz
  | .jl _ => .jl
  | .jle _ => .jle
  | .je _ => .je
  | .jne _ => .jne
  | .ja _ => .ja
  | .jae _ => .jae
  | .printInt => .printInt
  | .printString => .printString
  | .readInt => .readInt
  | .readString => .readString
  | .halt => .halt

/-- The immediate of an instruction, if its format has one (R82, R83). -/
def Instr.immediate : Instr → Option Word
  | .push imm | .const imm => some imm
  | .jmp imm | .jz imm | .jnz imm | .jbz imm | .jaz imm => some imm
  | .jl imm | .jle imm | .je imm | .jne imm | .ja imm | .jae imm => some imm
  | .nop | .pop | .load | .store | .add | .sub | .mul | .div | .mod | .call | .ret | .dup | .swap
  | .cmp | .test | .printInt | .printString | .readInt | .readString | .halt => none

/-- The instruction of a mnemonic with immediate `imm`; format `N` has no immediate and ignores it. -/
def Mnemonic.instr (k : Mnemonic) (imm : Word) : Instr :=
  match k with
  | .nop => .nop
  | .push => .push imm
  | .pop => .pop
  | .const => .const imm
  | .load => .load
  | .store => .store
  | .add => .add
  | .sub => .sub
  | .mul => .mul
  | .div => .div
  | .mod => .mod
  | .call => .call
  | .ret => .ret
  | .dup => .dup
  | .swap => .swap
  | .cmp => .cmp
  | .test => .test
  | .jmp => .jmp imm
  | .jz => .jz imm
  | .jnz => .jnz imm
  | .jbz => .jbz imm
  | .jaz => .jaz imm
  | .jl => .jl imm
  | .jle => .jle imm
  | .je => .je imm
  | .jne => .jne imm
  | .ja => .ja imm
  | .jae => .jae imm
  | .printInt => .printInt
  | .printString => .printString
  | .readInt => .readInt
  | .readString => .readString
  | .halt => .halt

/-- The length of an instruction in bytes (R84). -/
def Instr.length (i : Instr) : Nat := i.mnemonic.format.length

end Sys2Proof
end

