-- ==== Sys2Proof/Machine/State.lean ====
section
/-! DEFINITION. The state of the block (spec/10_state.md R20 to R41), the host's side of its I/O
channels (spec/47_io.md R190), the reasons a step can stop, and the state after reset. -/

namespace Sys2Proof.Machine

/-- The memory tape (R21): its bytes that are not 0, by address, strictly rising. A byte that is not
listed is 0, the tape's zero-initialised value (R37; DEDUCED, log 7, safe). -/
abbrev Memory := List Host.Cell

/-- The flags register (R27): eight stored booleans in two families. -/
structure Flags where
  /-- Relational: CMP found `a = b`. -/
  equal : Bool
  /-- Relational: CMP found `a != b`; stored, not computed from `equal`. -/
  notEqual : Bool
  /-- Relational: CMP found `a > b`. -/
  above : Bool
  /-- Relational: CMP found `a < b`. -/
  below : Bool
  /-- Sign-test: TEST found `a = 0`. -/
  zero : Bool
  /-- Sign-test: TEST found `a != 0`; stored, not computed from `zero`. -/
  notZero : Bool
  /-- Sign-test: TEST found `a > 0`. -/
  aboveZero : Bool
  /-- Sign-test: TEST found `a < 0`. -/
  belowZero : Bool
deriving DecidableEq, Repr

/-- The fault kinds of R33. -/
inductive FaultKind where
  /-- Raised by the fetch, a format-`I` immediate, LOAD, STORE, PRINT_STRING, READ_STRING, CALL, RET
  and every taken jump (spec/60_exceptions.md R210). -/
  | boundsError
  /-- Raised by every instruction that needs operands the stack does not hold. -/
  | stackUnderflowError
  /-- Raised by DIV and MOD on a zero divisor. -/
  | arithmeticError
  /-- Raised by the sequencer on a byte outside the opcode map. -/
  | unknownOpcodeError
  /-- Raised by READ_INT on malformed input or a number that is no word. -/
  | ioFormatError
  /-- Raised by PUSH, CONST, DUP and READ_INT when `STACK_CAPACITY` is finite and reached. -/
  | stackOverflowError
deriving DecidableEq, Repr

/-- The cause tag of `Halted` (R31). -/
inductive HaltCause where
  | haltInstruction
  | endOfTape
deriving DecidableEq, Repr

/-- The sequencer status (R31). -/
inductive Status where
  | running
  | halted (cause : HaltCause)
  | faulted (kind : FaultKind)
deriving DecidableEq, Repr

/-- The host's answer to `InputNumber()` (R190). -/
inductive NumberAnswer where
  | number (n : Int)
  | malformed
deriving DecidableEq, Repr

/-- An output transaction (R190). -/
inductive Emission where
  /-- `EmitNumber(v)`. -/
  | number (v : Word)
  /-- `EmitText(bs)`. -/
  | text (bs : List Byte)
deriving DecidableEq, Repr

/-- The state. `tape`, `ip`, `stack`, `flags` and `status` are the spec's (R20). `config` holds the
instance's parameters (DESIGN CHOICE, log 1, safe). `numberInput`, `textInput` and `output` are the host's side of
the channels, the model's own fields (DESIGN CHOICE, log 2, unsafe for claims about runs from reset; two queues: log 3, safe). -/
structure State where
  config : Config
  tape : Memory
  /-- `IP` (R22): an integer index, not a word. -/
  ip : Nat
  /-- The operand stack (R23): the head of the list is `S[0]`, the top. -/
  stack : List Word
  flags : Flags
  status : Status
  /-- Answers to `InputNumber()` not yet consumed, oldest first. -/
  numberInput : List NumberAnswer
  /-- Answers to `InputText()` not yet consumed, oldest first. -/
  textInput : List (List Byte)
  /-- Everything emitted so far, oldest first. -/
  output : List Emission
deriving DecidableEq, Repr

/-- Why `step` answers no next state (DEDUCED, log 5, safe). A fault the spec's machine raises is no
value of this type: it is a next state whose status is `Faulted` (R13). -/
inductive Fault where
  /-- Raised by `step` alone, in a state whose status is `Halted`: no step exists there (R32). Safe. -/
  | stepAfterHalt (cause : HaltCause)
  /-- Raised by `step` alone, in a state whose status is `Faulted`: no step exists there (R32). Safe. -/
  | stepAfterFault (kind : FaultKind)
deriving DecidableEq, Repr

/-- Why an instruction has no meaning. -/
inductive Refusal where
  /-- Raised by an arm of `exec` for an instruction not modelled yet; no arm raises it in this model. Safe. -/
  | notModelled (mnemonic : String)
deriving DecidableEq, Repr

/-- All eight flags false (R40). -/
def Flags.reset : Flags where
  equal := false
  notEqual := false
  above := false
  below := false
  zero := false
  notZero := false
  aboveZero := false
  belowZero := false

/-- The machine right after reset (R37 to R41): the load of the empty image under the default
parameters, so every byte of the tape is 0 (log 6). The host's channels are empty (DESIGN CHOICE,
log 2, unsafe). -/
def State.reset : State where
  config := Config.default
  tape := []
  ip := 0
  stack := []
  flags := Flags.reset
  status := .running
  numberInput := []
  textInput := []
  output := []

end Sys2Proof.Machine
end

