-- ==== Sys2Proof/Machine/Ops.lean ====
section
/-! DEFINITION. The named operations over the state: the tape and its bounds check (spec/20_memory.md
R51 to R58), raising a fault (spec/00_scope.md R13), waiting for input (spec/47_io.md R191), moving
IP (spec/30_encoding.md R91). -/

namespace Sys2Proof.Machine

/-- What a step or a meaning answers. -/
abbrev StepResult := Host.Outcome State Fault Refusal

/-! ### Updates of one field -/

def State.setTape (s : State) (m : Memory) : State := { s with tape := m }
def State.setIp (s : State) (a : Nat) : State := { s with ip := a }
def State.setStack (s : State) (st : List Word) : State := { s with stack := st }
def State.setFlags (s : State) (f : Flags) : State := { s with flags := f }
def State.setStatus (s : State) (st : Status) : State := { s with status := st }
def State.setNumberInput (s : State) (q : List NumberAnswer) : State := { s with numberInput := q }
def State.setTextInput (s : State) (q : List (List Byte)) : State := { s with textInput := q }
def State.setOutput (s : State) (o : List Emission) : State := { s with output := o }

/-! ### The tape as stored -/

/-- The canonical form: addresses strictly rising, no entry equal to what an unlisted address reads as. -/
abbrev Memory.wf (m : Memory) : Prop :=
  m.Pairwise (fun c d => c.1 < d.1) ∧ ∀ c ∈ m, c.2 ≠ 0

/-- Every listed address is one of the tape's, `0 .. C-1` (R21). -/
abbrev Memory.within (capacity : Nat) (m : Memory) : Prop := ∀ c ∈ m, c.1 < capacity

/-- `tape[a]` (R53). An unlisted byte is 0 (R37). -/
def Memory.get : Memory → Nat → Byte
  | [], _ => 0
  | (x, v) :: rest, a => if x = a then v else Memory.get rest a

/-- A cell in front of the cells above it, left out when its byte is 0. -/
def Memory.cell (a : Nat) (b : Byte) (rest : Memory) : Memory :=
  if b = 0 then rest else (a, b) :: rest

/-- `tape[a] <- b` (R53), keeping the canonical form. -/
def Memory.set : Memory → Nat → Byte → Memory
  | [], a, b => Memory.cell a b []
  | (x, v) :: rest, a, b =>
    if x < a then (x, v) :: Memory.set rest a b
    else if x = a then Memory.cell a b rest
    else Memory.cell a b ((x, v) :: rest)

/-- The bytes `tape[a] .. tape[a+n-1]`, in address order. -/
def Memory.readRun (m : Memory) : Nat → Nat → List Byte
  | _, 0 => []
  | a, n + 1 => Memory.get m a :: Memory.readRun m (a + 1) n

/-- Writes a run of bytes to the addresses from `a` on. -/
def Memory.writeRun : Memory → Nat → List Byte → Memory
  | m, _, [] => m
  | m, a, b :: bs => Memory.writeRun (Memory.set m a b) (a + 1) bs

/-! ### The tape with its bounds check -/

/-- `InBounds(a, w)` (R51), on exact integers: no 32-bit wrap. -/
abbrev State.InBounds (s : State) (a : Int) (w : Nat) : Prop :=
  0 ≤ a ∧ a + w ≤ s.config.tapeCapacity

/-- `MemRead(a, n)` (R58): none is the `BoundsError` case, in which no byte is read (R52). -/
def State.memRead (s : State) (a : Int) (n : Nat) : Option (List Byte) :=
  if s.InBounds a n then some (Memory.readRun s.tape a.toNat n) else none

/-- `MemWrite(a, n, bs)` (R58), `n` the length of `bs`: the tape after it, or none for the
`BoundsError` case, in which no byte is written (R52). -/
def State.memWrite (s : State) (a : Int) (bs : List Byte) : Option Memory :=
  if s.InBounds a bs.length then some (Memory.writeRun s.tape a.toNat bs) else none

/-- `readByte(a)` (R53). -/
def State.readByte (s : State) (a : Int) : Option Byte :=
  if s.InBounds a 1 then some (Memory.get s.tape a.toNat) else none

/-- `writeByte(a, b)` (R53). -/
def State.writeByte (s : State) (a : Int) (b : Byte) : Option Memory :=
  if s.InBounds a 1 then some (Memory.set s.tape a.toNat b) else none

/-- `ReadWord(a)` (R57). -/
def State.readWord (s : State) (a : Int) : Option Word := (s.memRead a 4).bind decodeBytes

/-- `WriteWord(a, v)` (R57): the tape after it. -/
def State.writeWord (s : State) (a : Int) (v : Word) : Option Memory := s.memWrite a (encodeWord v)

/-- A control target (spec/43_call_return.md R140, R141; spec/46_jumps.md R170): the address a word
names, if it lies in `0 .. C-1`. -/
def State.target (s : State) (t : Word) : Option Nat :=
  if s.InBounds t.toInt 1 then some t.toInt.toNat else none

/-! ### How an instruction ends -/

/-- `raise E` (R13; spec/60_exceptions.md R211, R213): taking a fault is a next state, the state as
it was with the status `Faulted(E)`. There is no handler, no saved IP and no mode to change, and no
instruction returns from a fault (R214), so no return stands beside it. -/
def raise (k : FaultKind) (s : State) : StepResult := .next (s.setStatus (.faulted k))

/-- The wait of READ_INT and READ_STRING on a host that has not answered (spec/10_state.md R36, R191):
the state is unchanged and nothing else happens (DESIGN CHOICE, log 4: rendered as a step to the same
state; unsafe for claims that count steps). -/
def hold (s : State) : StepResult := .next s

/-- `IP <- nextIP` for an instruction of format `f` (R91). -/
def State.advance (s : State) (f : Format) : State := s.setIp (s.ip + f.length)

/-- An output transaction: the host receives outputs in program order (R190). -/
def State.emit (s : State) (e : Emission) : State := s.setOutput (s.output ++ [e])

/-- Places the bytes of an instruction where the fetch reads its next one: from IP on, as many as
the tape holds there. -/
def State.placeAtIp (s : State) (bs : List Byte) : State :=
  s.setTape (Memory.writeRun s.tape s.ip (bs.take (s.config.tapeCapacity - s.ip)))

end Sys2Proof.Machine
end

