-- ==== Sys2Proof/Machine/Operands.lean ====
section
/-! DEFINITION. The operand forms: words from the operand stack with their depth check, and room for
a push (spec/10_state.md R23 to R26). The other operand form, the immediate, comes from the decoder. -/

namespace Sys2Proof.Machine

/-- `Need(1)` and `S[0]` (R26): the body gets the top and the words below it; nothing is popped yet. -/
def needOne (s : State) (body : Word → List Word → StepResult) : StepResult :=
  match s.stack with
  | x :: rest => body x rest
  | [] => raise .stackUnderflowError s

/-- `Need(2)`, `S[0]` and `S[1]` (R26): the body gets the top, the word below it, and the words below both. -/
def needTwo (s : State) (body : Word → Word → List Word → StepResult) : StepResult :=
  match s.stack with
  | x :: y :: rest => body x y rest
  | [_] => raise .stackUnderflowError s
  | [] => raise .stackUnderflowError s

/-- `depth + 1 <= STACK_CAPACITY` (R25); always true when it is `unbounded`. -/
abbrev State.HasRoom (s : State) : Prop := ∀ n ∈ s.config.stackCapacity, s.stack.length + 1 ≤ n

/-- `Room(1)` (R25): the only room any instruction asks for (spec/30_encoding.md R84). -/
def room (s : State) (body : StepResult) : StepResult :=
  if s.HasRoom then body else raise .stackOverflowError s

end Sys2Proof.Machine
end

