-- ==== Sys2Proof/Machine/Arithmetic.lean ====
section
/-! DEFINITION. ADD, SUB, MUL, DIV and MOD (spec/42_arithmetic.md): one behavior with an operator tag. -/

namespace Sys2Proof.Machine

/-- The operator tag of R130. -/
inductive ArithOp where
  | add | sub | mul | div | mod
deriving DecidableEq, Repr

/-- DIV and MOD raise `ArithmeticError` on a zero divisor (R134, R135). -/
def ArithOp.divides : ArithOp → Bool
  | .div | .mod => true
  | .add | .sub | .mul => false

/-- `op(a, b)` (R131 to R136): computed exactly on the signed values, then wrapped. `tdiv` rounds
toward zero and `tmod` is its remainder, with the sign of the dividend. -/
def ArithOp.apply (op : ArithOp) (a b : Word) : Word :=
  match op with
  | .add => wrap32 (a.toInt + b.toInt)
  | .sub => wrap32 (a.toInt - b.toInt)
  | .mul => wrap32 (a.toInt * b.toInt)
  | .div => wrap32 (a.toInt.tdiv b.toInt)
  | .mod => wrap32 (a.toInt.tmod b.toInt)

/-- `Arith(op)` (R130): `b` is `S[0]`, `a` is `S[1]`. -/
def arith (op : ArithOp) (s : State) : StepResult :=
  needTwo s fun b a rest =>
    if op.divides ∧ b.toInt = 0 then raise .arithmeticError s
    else .next ((s.setStack (op.apply a b :: rest)).advance .n)

/-- ADD (R131). -/
def execAdd (s : State) : StepResult := arith .add s

/-- SUB (R132). -/
def execSub (s : State) : StepResult := arith .sub s

/-- MUL (R133). -/
def execMul (s : State) : StepResult := arith .mul s

/-- DIV (R134). -/
def execDiv (s : State) : StepResult := arith .div s

/-- MOD (R135). -/
def execMod (s : State) : StepResult := arith .mod s

end Sys2Proof.Machine
end

