-- ==== Sys2Proof/Machine/Basic.lean ====
section
/-! DEFINITION. NOP, PUSH, POP and CONST (spec/40_basic.md). -/

namespace Sys2Proof.Machine

/-- PUSH and CONST have one effect (R111, R113): the immediate becomes the new top. -/
def pushImmediate (imm : Word) (s : State) : StepResult :=
  room s (.next ((s.setStack (imm :: s.stack)).advance .i))

/-- NOP (R110). -/
def execNop (s : State) : StepResult := .next (s.advance .n)

/-- PUSH (R111). -/
def execPush (imm : Word) (s : State) : StepResult := pushImmediate imm s

/-- POP (R112). -/
def execPop (s : State) : StepResult :=
  needOne s fun _ rest => .next ((s.setStack rest).advance .n)

/-- CONST (R113). -/
def execConst (imm : Word) (s : State) : StepResult := pushImmediate imm s

end Sys2Proof.Machine
end

