-- ==== Sys2Proof/Machine/CallReturn.lean ====
section
/-! DEFINITION. CALL and RET (spec/43_call_return.md). -/

namespace Sys2Proof.Machine

/-- The return address CALL pushes, `nextIP` as a word (R140): exact wherever `IP + 1` is a word, as
it is in every state a run reaches, since `IP < C <= 2^31 - 1` there (elsewhere it wraps: DESIGN
CHOICE, log 8, unsafe only for states no run reaches). -/
def State.returnAddress (s : State) : Word := wrap32 (s.ip + Format.n.length : Nat)

/-- CALL (R140): the target on top is checked before anything changes, then replaced by the return
address. -/
def execCall (s : State) : StepResult :=
  needOne s fun t rest =>
    match s.target t with
    | none => raise .boundsError s
    | some a => .next ((s.setStack (s.returnAddress :: rest)).setIp a)

/-- RET (R141). -/
def execRet (s : State) : StepResult :=
  needOne s fun t rest =>
    match s.target t with
    | none => raise .boundsError s
    | some a => .next ((s.setStack rest).setIp a)

end Sys2Proof.Machine
end

