-- ==== Sys2Proof/Machine/Flags.lean ====
section
/-! DEFINITION. The flag computations of CMP and TEST (spec/45_compare_test.md R160, R161;
spec/10_state.md R29) and the conditions of the jumps (spec/46_jumps.md R170). -/

namespace Sys2Proof.Machine

/-- `ResetFamily(relational)` (R29). -/
def Flags.resetRelational (f : Flags) : Flags :=
  { f with equal := false, notEqual := false, above := false, below := false }

/-- `ResetFamily(signTest)` (R29). -/
def Flags.resetSignTest (f : Flags) : Flags :=
  { f with zero := false, notZero := false, aboveZero := false, belowZero := false }

/-- The flags after CMP of `a` and `b` (R160), by the exact signed order. -/
def Flags.compare (f : Flags) (a b : Word) : Flags :=
  { f.resetRelational with
    equal := decide (a.toInt = b.toInt)
    notEqual := decide (a.toInt ≠ b.toInt)
    above := decide (a.toInt > b.toInt)
    below := decide (a.toInt < b.toInt) }

/-- The flags after TEST of `a` (R161). -/
def Flags.signTest (f : Flags) (a : Word) : Flags :=
  { f.resetSignTest with
    zero := decide (a.toInt = 0)
    notZero := decide (a.toInt ≠ 0)
    aboveZero := decide (a.toInt > 0)
    belowZero := decide (a.toInt < 0) }

/-- `cond(F)` of each mnemonic of the table of R170; a mnemonic that is no jump has none and is
given false. -/
def Flags.condition (f : Flags) : Mnemonic → Bool
  | .jmp => true
  | .jz => f.zero
  | .jnz => f.notZero
  | .jbz => f.belowZero
  | .jaz => f.aboveZero
  | .jl => f.below
  | .jle => f.below || f.equal
  | .je => f.equal
  | .jne => f.notEqual
  | .ja => f.above
  | .jae => f.above || f.equal
  | .nop | .push | .pop | .const | .load | .store | .add | .sub | .mul | .div | .mod => false
  | .call | .ret | .dup | .swap | .cmp | .test => false
  | .printInt | .printString | .readInt | .readString | .halt => false

end Sys2Proof.Machine
end

