-- ==== Sys2Proof/Machine/CompareTest.lean ====
section
/-! DEFINITION. CMP and TEST (spec/45_compare_test.md). -/

namespace Sys2Proof.Machine

/-- CMP (R160): `b` is `S[0]`, `a` is `S[1]`. -/
def execCmp (s : State) : StepResult :=
  needTwo s fun b a rest =>
    .next (((s.setStack rest).setFlags (s.flags.compare a b)).advance .n)

/-- TEST (R161). -/
def execTest (s : State) : StepResult :=
  needOne s fun a rest =>
    .next (((s.setStack rest).setFlags (s.flags.signTest a)).advance .n)

end Sys2Proof.Machine
end

