-- ==== Sys2Proof/Machine/Halt.lean ====
section
/-! DEFINITION. HALT (spec/48_halt.md). -/

namespace Sys2Proof.Machine

/-- HALT (R200). -/
def execHalt (s : State) : StepResult :=
  .next ((s.advance .n).setStatus (.halted .haltInstruction))

end Sys2Proof.Machine
end

