-- ==== Sys2Proof/Machine/InputOutput.lean ====
section
/-! DEFINITION. PRINT_INT, PRINT_STRING, READ_INT and READ_STRING (spec/47_io.md). -/

namespace Sys2Proof.Machine

/-- PRINT_INT (R192). -/
def execPrintInt (s : State) : StepResult :=
  needOne s fun n rest => .next (((s.setStack rest).emit (.number n)).advance .n)

/-- PRINT_STRING (R193): the length is `S[0]`, the address `S[1]`. -/
def execPrintString (s : State) : StepResult :=
  needTwo s fun len addr rest =>
    if len.toInt < 0 then raise .boundsError s
    else
      match s.memRead addr.toInt len.toInt.toNat with
      | none => raise .boundsError s
      | some bs => .next (((s.setStack rest).emit (.text bs)).advance .n)

/-- The integers that are words (`s32`, spec/00_scope.md R10). -/
abbrev IsWord (n : Int) : Prop := -(2 ^ 31) ≤ n ∧ n ≤ 2 ^ 31 - 1

/-- READ_INT (R194): the room is checked before the input is requested; the answer a faulting
READ_INT consumed is gone (spec/00_scope.md R13). -/
def execReadInt (s : State) : StepResult :=
  room s
    (match s.numberInput with
    | [] => hold s
    | .malformed :: more => raise .ioFormatError (s.setNumberInput more)
    | .number n :: more =>
      if IsWord n then .next (((s.setNumberInput more).setStack (wrap32 n :: s.stack)).advance .n)
      else raise .ioFormatError (s.setNumberInput more))

/-- What READ_STRING pushes when the text is longer than the buffer (R195): -1. -/
def sentinel : Word := wrap32 (-1)

/-- READ_STRING (R195): the buffer length is `S[0]`, the address `S[1]`. The depth is checked before
the input is requested, the address only when the text fits the buffer. -/
def execReadString (s : State) : StepResult :=
  needTwo s fun bufLen addr rest =>
    match s.textInput with
    | [] => hold s
    | bs :: more =>
      if (bs.length : Int) > bufLen.toInt then
        .next (((s.setTextInput more).setStack (sentinel :: rest)).advance .n)
      else
        match s.memWrite addr.toInt bs with
        | none => raise .boundsError (s.setTextInput more)
        | some tape =>
          .next ((((s.setTextInput more).setTape tape).setStack (wrap32 bs.length :: rest)).advance .n)

end Sys2Proof.Machine
end

