-- ==== Sys2Proof/Machine/Jumps.lean ====
section
/-! DEFINITION. JMP and the ten conditional jumps (spec/46_jumps.md). -/

namespace Sys2Proof.Machine

/-- `Jump(cond)` (R170) for the jump with mnemonic `k`: the target is checked only when the jump is taken. -/
def jump (k : Mnemonic) (imm : Word) (s : State) : StepResult :=
  if s.flags.condition k then
    match s.target imm with
    | none => raise .boundsError s
    | some a => .next (s.setIp a)
  else .next (s.advance .i)

/-- JMP (R171). -/
def execJmp (imm : Word) (s : State) : StepResult := jump .jmp imm s

/-- JZ (R172). -/
def execJz (imm : Word) (s : State) : StepResult := jump .jz imm s

/-- JNZ (R173). -/
def execJnz (imm : Word) (s : State) : StepResult := jump .jnz imm s

/-- JBZ (R174). -/
def execJbz (imm : Word) (s : State) : StepResult := jump .jbz imm s

/-- JAZ (R175). -/
def execJaz (imm : Word) (s : State) : StepResult := jump .jaz imm s

/-- JL (R176). -/
def execJl (imm : Word) (s : State) : StepResult := jump .jl imm s

/-- JLE (R177). -/
def execJle (imm : Word) (s : State) : StepResult := jump .jle imm s

/-- JE (R178). -/
def execJe (imm : Word) (s : State) : StepResult := jump .je imm s

/-- JNE (R179). -/
def execJne (imm : Word) (s : State) : StepResult := jump .jne imm s

/-- JA (R180). -/
def execJa (imm : Word) (s : State) : StepResult := jump .ja imm s

/-- JAE (R181). -/
def execJae (imm : Word) (s : State) : StepResult := jump .jae imm s

end Sys2Proof.Machine
end

