-- ==== Sys2Proof/Machine/MemoryAccess.lean ====
section
/-! DEFINITION. LOAD and STORE (spec/41_memory_access.md). -/

namespace Sys2Proof.Machine

/-- LOAD (R120): the address on top is replaced by the word at it. -/
def execLoad (s : State) : StepResult :=
  needOne s fun a rest =>
    match s.readWord a.toInt with
    | none => raise .boundsError s
    | some v => .next ((s.setStack (v :: rest)).advance .n)

/-- STORE (R121): the value is `S[0]`, the address `S[1]`. -/
def execStore (s : State) : StepResult :=
  needTwo s fun v a rest =>
    match s.writeWord a.toInt v with
    | none => raise .boundsError s
    | some tape => .next (((s.setTape tape).setStack rest).advance .n)

end Sys2Proof.Machine
end

