-- ==== Sys2Proof/Machine/StackManipulation.lean ====
section
/-! DEFINITION. DUP and SWAP (spec/44_stack_manipulation.md). -/

namespace Sys2Proof.Machine

/-- DUP (R150): the depth is checked before the room. -/
def execDup (s : State) : StepResult :=
  needOne s fun v rest => room s (.next ((s.setStack (v :: v :: rest)).advance .n))

/-- SWAP (R151): `y`, the old `S[1]`, is the new top. -/
def execSwap (s : State) : StepResult :=
  needTwo s fun x y rest => .next ((s.setStack (y :: x :: rest)).advance .n)

end Sys2Proof.Machine
end

