-- ==== Sys2Proof/Machine/Dispatch.lean ====
section
/-! DEFINITION. The dispatch: one arm per instruction (spec/30_encoding.md R90, "run the rule of e.mnemonic").
exec does not look at the status; step does (DEDUCED, log 10, unsafe for a claim about exec read as one
about a halted machine). -/

namespace Sys2Proof.Machine

def exec (i : Instr) (s : State) : Host.Outcome State Fault Refusal :=
  match i with
  | .nop => Sys2Proof.Machine.execNop s
  | .push imm => Sys2Proof.Machine.execPush imm s
  | .pop => Sys2Proof.Machine.execPop s
  | .const imm => Sys2Proof.Machine.execConst imm s
  | .load => Sys2Proof.Machine.execLoad s
  | .store => Sys2Proof.Machine.execStore s
  | .add => Sys2Proof.Machine.execAdd s
  | .sub => Sys2Proof.Machine.execSub s
  | .mul => Sys2Proof.Machine.execMul s
  | .div => Sys2Proof.Machine.execDiv s
  | .mod => Sys2Proof.Machine.execMod s
  | .call => Sys2Proof.Machine.execCall s
  | .ret => Sys2Proof.Machine.execRet s
  | .dup => Sys2Proof.Machine.execDup s
  | .swap => Sys2Proof.Machine.execSwap s
  | .cmp => Sys2Proof.Machine.execCmp s
  | .test => Sys2Proof.Machine.execTest s
  | .jmp imm => Sys2Proof.Machine.execJmp imm s
  | .jz imm => Sys2Proof.Machine.execJz imm s
  | .jnz imm => Sys2Proof.Machine.execJnz imm s
  | .jbz imm => Sys2Proof.Machine.execJbz imm s
  | .jaz imm => Sys2Proof.Machine.execJaz imm s
  | .jl imm => Sys2Proof.Machine.execJl imm s
  | .jle imm => Sys2Proof.Machine.execJle imm s
  | .je imm => Sys2Proof.Machine.execJe imm s
  | .jne imm => Sys2Proof.Machine.execJne imm s
  | .ja imm => Sys2Proof.Machine.execJa imm s
  | .jae imm => Sys2Proof.Machine.execJae imm s
  | .printInt => Sys2Proof.Machine.execPrintInt s
  | .printString => Sys2Proof.Machine.execPrintString s
  | .readInt => Sys2Proof.Machine.execReadInt s
  | .readString => Sys2Proof.Machine.execReadString s
  | .halt => Sys2Proof.Machine.execHalt s

end Sys2Proof.Machine
end

