-- ==== Sys2Proof/WellFormed.lean ====
section
/-! DEFINITION. What the parameters and an image must satisfy (spec/00_scope.md R5, R8;
spec/70_reset_and_hazards.md R230, R231). An `Instr` needs no check of its own: its only operand is
an immediate, which R82 allows to be any word, and the type `Word` holds exactly those; a jump's
target is checked when the jump is taken (spec/46_jumps.md R170), not in the encoding. Whether an
instruction HAS an encoding depends on the opcode map alone, so `OpcodeMap.wf` is the check under
which every instruction is well formed. -/

namespace Sys2Proof

/-- `OPCODE_MAP` is injective: no two mnemonics share a byte (R8; spec/90_conflicts.md C3). -/
abbrev OpcodeMap.wf (m : OpcodeMap) : Prop := (Mnemonic.all.map m.byteOf).Nodup

/-- The parameters R5 and R8 admit: `C <= 2^31 - 1` and an injective opcode map. Any stack capacity
is admitted (R7). -/
abbrev Config.wf (c : Config) : Prop := c.tapeCapacity ≤ 2 ^ 31 - 1 ∧ c.opcodeMap.wf

/-- The image fits the tape (R230). -/
abbrev imageFits (c : Config) (image : List Byte) : Prop := image.length ≤ c.tapeCapacity

end Sys2Proof
end

