-- ==== Sys2Proof/Decode.lean ====
section
/-! DEFINITION. The instruction decoder and the encoder (spec/30_encoding.md R80 to R87). -/

namespace Sys2Proof

/-- What the decoder answers on a byte sequence that starts at an instruction. -/
inductive Decoded where
  /-- An instruction, and the bytes after it. -/
  | instr (i : Instr) (rest : List Byte)
  /-- The first byte is no opcode of the map: illegal (R85). -/
  | unknownOpcode (op : Byte)
  /-- A format-`I` opcode with fewer than four bytes after it (R89). -/
  | truncated
  /-- No byte at all. -/
  | noBytes
deriving DecidableEq, Repr

/-- The decoder, total on any bytes (R82, R86, R87): the opcode byte alone decides the format; a
format-`I` instruction's immediate is `Decode` of the four bytes after the opcode. -/
def decode (m : OpcodeMap) : List Byte → Decoded
  | [] => .noBytes
  | op :: rest =>
    match m.lookup op with
    | none => .unknownOpcode op
    | some e =>
      match e.format with
      | .n => .instr (e.mnemonic.instr 0) rest
      | .i =>
        match rest with
        | b0 :: b1 :: b2 :: b3 :: rest' => .instr (e.mnemonic.instr (decodeWord b0 b1 b2 b3)) rest'
        | _ => .truncated

/-- The bytes of an instruction (R81, R82): its opcode, then its immediate's bytes, if it has one. -/
def encode (m : OpcodeMap) (i : Instr) : List Byte :=
  m.byteOf i.mnemonic ::
    match i.immediate with
    | none => []
    | some imm => encodeWord imm

/-- The `n` low bytes of a number, least significant first. -/
def bytesOfNat : Nat → Nat → List Byte
  | 0, _ => []
  | n + 1, w => BitVec.ofNat 8 w :: bytesOfNat n (w / 256)

/-- The longest instruction's bytes that a table word of `nbits` bits stands for: its own, bit 0 the
least significant bit of the byte at the lowest address, and zeros above `nbits`. -/
def tableBytes (nbits w : Nat) : List Byte := bytesOfNat Format.i.length (w % 2 ^ nbits)

/-- The instruction the decoder reads, under the default map of R84, from the word `w`. -/
def decodeTableWord (nbits w : Nat) : Option Instr :=
  match decode defaultOpcodeMap (tableBytes nbits w) with
  | .instr i _ => some i
  | .unknownOpcode _ => none
  | .truncated => none
  | .noBytes => none

end Sys2Proof
end

