-- ==== Sys2Proof/Machine/Fetch.lean ====
section
/-! DEFINITION. The instruction fetch unit (spec/30_encoding.md R88, R89) and its place in a step (R90). -/

namespace Sys2Proof.Machine

/-- What the fetch at IP and the decoder answer (R88, R89, R90). -/
inductive Fetched where
  /-- `IP = C`: clean termination (R88). -/
  | endOfTape
  /-- The fetch or the decoder raises a fault. -/
  | raises (k : FaultKind)
  /-- The instruction at IP. -/
  | instr (i : Instr)
deriving DecidableEq, Repr

/-- The bytes the fetch can reach: the tape from IP on, at most the longest instruction's length
(DEDUCED, log 9, safe: the decoder uses only those the opcode's format calls for, and reading has no
side effect, spec/20_memory.md R62). -/
def State.window (s : State) : List Byte :=
  Memory.readRun s.tape s.ip (min Format.i.length (s.config.tapeCapacity - s.ip))

/-- Fetch and decode (R88, R89, R90), in the priority of spec/60_exceptions.md R215: end of tape, IP
out of range, unknown opcode, immediate outside the tape. -/
def fetch (s : State) : Fetched :=
  if s.ip = s.config.tapeCapacity then .endOfTape
  else if s.config.tapeCapacity < s.ip then .raises .boundsError
  else
    match decode s.config.opcodeMap s.window with
    | .instr i _ => .instr i
    | .unknownOpcode _ => .raises .unknownOpcodeError
    | .truncated => .raises .boundsError
    | .noBytes => .raises .boundsError

end Sys2Proof.Machine
end

