-- ==== Sys2Proof/Machine/Step.lean ====
section
/-! DEFINITION. One step of the sequencer (spec/30_encoding.md R90), and the placing of a word where
the next step fetches. -/

namespace Sys2Proof.Machine

/-- One step, taken only in `Running` (spec/10_state.md R32); in `Halted` and `Faulted` there is none
(DEDUCED, log 5, safe). -/
def step (s : State) : Host.Outcome State Fault Refusal :=
  match s.status with
  | .halted cause => .fault (.stepAfterHalt cause)
  | .faulted kind => .fault (.stepAfterFault kind)
  | .running =>
    match fetch s with
    | .endOfTape => .next (s.setStatus (.halted .endOfTape))
    | .raises k => raise k s
    | .instr i => exec i s

/-- The state with the table word `w` stored at IP, so that the next step fetches it: it stands for
the load of a program from outside the machine (DESIGN CHOICE, logs 6 and 12, unsafe at the tape's
end). -/
def State.withFetchWord (s : State) (nbits w : Nat) : State := s.placeAtIp (tableBytes nbits w)

end Sys2Proof.Machine
end

