-- ==== Sys2Proof/Machine/HostInterface.lean ====
section
/-! DEFINITION. What the host does to the block between steps (spec/70_reset_and_hazards.md R230 to
R236): the load, the answers to input requests, the status codes and the diagnostic view. -/

namespace Sys2Proof.Machine

/-- The end of a load (R230, R231). -/
inductive LoadResult where
  /-- The instance, ready for its first step. -/
  | loaded (s : State)
  /-- The image is longer than the tape: no instance runs and no state is defined. -/
  | capacityError
deriving DecidableEq, Repr

/-- The load of an image into a new instance with parameters `c` (R230, R231; spec/10_state.md R37 to
R41): the image from address 0, zeros after it, every other part at its reset value. -/
def load (c : Config) (image : List Byte) : LoadResult :=
  if imageFits c image then
    .loaded
      { config := c
        tape := Memory.writeRun [] 0 image
        ip := 0
        stack := []
        flags := Flags.reset
        status := .running
        numberInput := []
        textInput := []
        output := [] }
  else .capacityError

/-- The code of a fault kind on the status interface (spec/60_exceptions.md R210). -/
def FaultKind.code : FaultKind → Nat
  | .boundsError => 1
  | .stackUnderflowError => 2
  | .arithmeticError => 3
  | .unknownOpcodeError => 4
  | .ioFormatError => 5
  | .stackOverflowError => 6

/-- The code of a status: 0 means no fault (R210). -/
def Status.code : Status → Nat
  | .running => 0
  | .halted _ => 0
  | .faulted k => k.code

/-- The code of a load: 7 is the capacity error (R210, R231; DEDUCED, log 13, safe). -/
def LoadResult.code : LoadResult → Nat
  | .loaded s => s.status.code
  | .capacityError => 7

/-- The host answers an `InputNumber()` request (R190, R191). -/
def State.answerNumber (s : State) (r : NumberAnswer) : State :=
  s.setNumberInput (s.numberInput ++ [r])

/-- The host answers an `InputText()` request (R190, R191). -/
def State.answerText (s : State) (bs : List Byte) : State := s.setTextInput (s.textInput ++ [bs])

/-- What the host may read after the run (spec/60_exceptions.md R221). -/
structure Diagnostics where
  tape : Memory
  stack : List Word
  ip : Nat
  flags : Flags
  status : Status
deriving DecidableEq, Repr

/-- The diagnostic read: none while the instance runs (R221, R236; DEDUCED, log 14, safe). -/
def State.diagnostics (s : State) : Option Diagnostics :=
  match s.status with
  | .running => none
  | .halted _ => some ⟨s.tape, s.stack, s.ip, s.flags, s.status⟩
  | .faulted _ => some ⟨s.tape, s.stack, s.ip, s.flags, s.status⟩

end Sys2Proof.Machine
end

