-- ==== Sys2Proof/Safety.lean ====
section
/-! DEFINITION. The states a run can be in, and what a safe run is, in the terms the statements use. -/

namespace Sys2Proof.Machine

/-- A family after its last writer or after reset (spec/45_compare_test.md R160, R161; spec/10_state.md
R40): all four flags false, or exactly one of `same`, `more`, `less` and `differs` the negation of `same`. -/
def familyLegal (same differs more less : Bool) : Bool :=
  match same, differs, more, less with
  | false, false, false, false => true
  | true, false, false, false => true
  | false, true, true, false => true
  | false, true, false, true => true
  | _, _, _, _ => false

/-- Both families are as their writers leave them. -/
def Flags.legal (f : Flags) : Bool :=
  familyLegal f.equal f.notEqual f.above f.below && familyLegal f.zero f.notZero f.aboveZero f.belowZero

/-- The states runs go through: admitted parameters (spec/00_scope.md R5, R8), the tape's canonical
form within its `C` bytes (R21), `IP` in `0 .. C` (R22), no more words than the stack can hold (R25),
flag families as CMP and TEST leave them. -/
abbrev State.Inv (s : State) : Prop :=
  s.config.wf ∧ Memory.wf s.tape ∧ Memory.within s.config.tapeCapacity s.tape ∧
  s.ip ≤ s.config.tapeCapacity ∧ (∀ n ∈ s.config.stackCapacity, s.stack.length ≤ n) ∧
  s.flags.legal = true

/-- A move of the instance: a step, or an answer of the host between steps (spec/70_reset_and_hazards.md R236). -/
inductive Move : State → State → Prop where
  | step (s t : State) (h : Sys2Proof.Machine.step s = .next t) : Move s t
  | answerNumber (s : State) (r : NumberAnswer) : Move s (s.answerNumber r)
  | answerText (s : State) (bs : List Byte) : Move s (s.answerText bs)

/-- The states some finite run of an instance reaches: from the load of an image that fits, under
parameters the spec admits, by moves. -/
inductive Reachable : State → Prop where
  | load (c : Config) (image : List Byte) (s : State) (hc : c.wf)
      (h : Sys2Proof.Machine.load c image = .loaded s) : Reachable s
  | move (s t : State) (hs : Reachable s) (h : Move s t) : Reachable t

/-- `t` comes from `s` by moves of the instance. -/
inductive Moves : State → State → Prop where
  | refl (s : State) : Moves s s
  | tail (s t u : State) (hs : Moves s t) (h : Move t u) : Moves s u

/-- A run has ended (R234). -/
abbrev State.Ended (s : State) : Prop := s.status ≠ .running

/-- The run from `s` is safe: no state it reaches is `Faulted`. -/
def State.SafeRun (s : State) : Prop := ∀ t k, Moves s t → t.status ≠ .faulted k

end Sys2Proof.Machine
end

