-- ==== Sys2Proof/Certificates/Slice0/Obligations.lean ====
section
/-! DEFINITION. The statements for the provers. Each cites the numbered rule of spec/ it formalises;
a clause that rests on a choice of the model names its log entry. A fault of the machine is a next
state whose status is `Faulted` (spec/00_scope.md R13). -/

open Sys2Proof Sys2Proof.Machine

/-! ### Encoding and decoding -/

/-- Words written out from the encodings of spec/30_encoding.md R81, R82 and R84, at least one of every
family, decode to the instructions they stand for; bytes outside the map decode to none. -/
def Obligations.WordsOfTheTableDecode : Prop :=
  decodeTableWord 8 0x00 = some .nop ∧
  decodeTableWord 40 0xFFFFFFFE01 = some (.push (-2)) ∧
  decodeTableWord 40 0x0000002A03 = some (.const 42) ∧
  decodeTableWord 8 0x05 = some .store ∧
  decodeTableWord 8 0x0A = some .mod ∧
  decodeTableWord 8 0x0B = some .call ∧
  decodeTableWord 8 0x0E = some .swap ∧
  decodeTableWord 8 0x10 = some .test ∧
  decodeTableWord 40 0x1234567811 = some (.jmp 0x12345678) ∧
  decodeTableWord 40 0x800000001B = some (.jae 0x80000000) ∧
  decodeTableWord 8 0x1F = some .readString ∧
  decodeTableWord 8 0x20 = some .halt ∧
  decodeTableWord 8 0x21 = none ∧
  decodeTableWord 8 0xFF = none

/-- Decoding the encoding of any instruction, under any injective opcode map and whatever bytes
follow, gives that instruction back with every bit of its immediate, and leaves the bytes that follow
(R8, R80 to R84). -/
def Obligations.DecodeOfEncodeIsTheInstruction : Prop :=
  ∀ (m : OpcodeMap) (i : Instr) (rest : List Byte), m.wf →
    decode m (encode m i ++ rest) = .instr i rest

/-- Bytes that decode to an instruction are that instruction's encoding and what follows: no bit is
dropped and no instruction has two encodings (R80 to R84, R86). -/
def Obligations.DecodedBytesAreTheEncoding : Prop :=
  ∀ (m : OpcodeMap) (bs : List Byte) (i : Instr) (rest : List Byte),
    decode m bs = .instr i rest → bs = encode m i ++ rest

/-- R85: a byte no mnemonic has is illegal, with the default map exactly 0x21 to 0xFF, and fetching it
raises `UnknownOpcodeError`; under an injective map every other byte fetches the mnemonic it encodes,
or faults because its immediate is not all in the tape. -/
def Obligations.IllegalOpcodeRaisesUnknownOpcodeError : Prop :=
  (∀ b : Byte, defaultOpcodeMap.lookup b = none ↔ 0x21 ≤ b.toNat) ∧
  (∀ s : State, s.ip < s.config.tapeCapacity →
    ((∀ k : Mnemonic, s.config.opcodeMap.byteOf k ≠ Memory.get s.tape s.ip) ↔
      fetch s = .raises .unknownOpcodeError)) ∧
  (∀ s : State, s.status = .running → s.ip < s.config.tapeCapacity →
    (∀ k : Mnemonic, s.config.opcodeMap.byteOf k ≠ Memory.get s.tape s.ip) →
    step s = .next { s with status := .faulted .unknownOpcodeError }) ∧
  (∀ (s : State) (k : Mnemonic), s.config.opcodeMap.wf → s.ip < s.config.tapeCapacity →
    Memory.get s.tape s.ip = s.config.opcodeMap.byteOf k →
    (∃ imm : Word, fetch s = .instr (k.instr imm)) ∨
    (k.format = .i ∧ s.config.tapeCapacity < s.ip + 5 ∧ fetch s = .raises .boundsError))

/-- R54: `Decode` is `signed32` of the little-endian sum of the four bytes. -/
def Obligations.DecodeWordIsLittleEndianSigned : Prop :=
  ∀ b0 b1 b2 b3 : Byte,
    let u := b0.toNat + 256 * b1.toNat + 65536 * b2.toNat + 16777216 * b3.toNat
    (decodeWord b0 b1 b2 b3).toInt = if u < 2 ^ 31 then (u : Int) else u - 2 ^ 32

/-- R55: `Encode` gives the bytes of `unsigned32(v)`, least significant first. -/
def Obligations.EncodeWordIsLittleEndian : Prop :=
  ∀ v : Word, (encodeWord v).map BitVec.toNat =
    [v.toNat % 256, v.toNat / 256 % 256, v.toNat / 65536 % 256, v.toNat / 16777216]

/-- R56: the codec is a bijection of words and runs of four bytes. -/
def Obligations.WordCodecRoundTrip : Prop :=
  (∀ v : Word, decodeBytes (encodeWord v) = some v) ∧
  (∀ b0 b1 b2 b3 : Byte, encodeWord (decodeWord b0 b1 b2 b3) = [b0, b1, b2, b3])

/-- `wrap32(x)` is congruent to `x` modulo `2^32`, and no other word is (spec/00_scope.md R11). -/
def Obligations.WrapIsTheCongruentWord : Prop :=
  ∀ (x : Int) (w : Word), w = wrap32 x ↔ (2 ^ 32 : Int) ∣ w.toInt - x

/-! ### Fetch and step -/

/-- Where the bytes the fetch reaches decode to an instruction, the step is exec of it at the same
state: the step adds nothing around exec (R90, R92). -/
def Obligations.StepRunsTheDecodedInstruction : Prop :=
  ∀ (s : State) (i : Instr) (rest : List Byte), s.status = .running →
    s.ip < s.config.tapeCapacity → decode s.config.opcodeMap s.window = .instr i rest →
    step s = exec i s

/-- Where the tape holds an instruction's encoding at IP, the step is exec of that instruction (R82,
R90), for every instruction and every immediate. -/
def Obligations.StepRunsTheEncodedInstruction : Prop :=
  ∀ (s : State) (i : Instr), s.config.opcodeMap.wf → s.status = .running →
    s.memRead s.ip i.length = some (encode s.config.opcodeMap i) → step s = exec i s

/-- R88: the three answers of the opcode fetch. With `IP` in the tape the fetch answers the opcode
byte: a one-byte instruction is fetched whatever follows it, and a fault then comes from the byte
itself, which no mnemonic has, or from an immediate that is not all in the tape. -/
def Obligations.OpcodeFetchAnswers : Prop :=
  (∀ s : State, s.status = .running → s.ip = s.config.tapeCapacity →
    step s = .next { s with status := .halted .endOfTape }) ∧
  (∀ s : State, s.status = .running → s.config.tapeCapacity < s.ip →
    step s = .next { s with status := .faulted .boundsError }) ∧
  (∀ s : State, s.ip < s.config.tapeCapacity → fetch s ≠ .endOfTape ∧
    (∀ i : Instr, fetch s = .instr i →
      Memory.get s.tape s.ip = s.config.opcodeMap.byteOf i.mnemonic) ∧
    (∀ f : FaultKind, fetch s = .raises f →
      (f = .unknownOpcodeError ∧
        ∀ k : Mnemonic, s.config.opcodeMap.byteOf k ≠ Memory.get s.tape s.ip) ∨
      (f = .boundsError ∧ s.config.tapeCapacity < s.ip + 5 ∧
        ∃ k : Mnemonic, k.format = .i ∧ s.config.opcodeMap.byteOf k = Memory.get s.tape s.ip))) ∧
  (∀ (s : State) (k : Mnemonic), s.config.opcodeMap.wf → s.ip < s.config.tapeCapacity →
    Memory.get s.tape s.ip = s.config.opcodeMap.byteOf k → k.format = .n →
    fetch s = .instr (k.instr 0))

/-- R89: a format-`I` opcode reads its immediate from the four bytes after it, or raises `BoundsError`
where they are not all in the tape. -/
def Obligations.ImmediateFetch : Prop :=
  ∀ (s : State) (k : Mnemonic), s.config.opcodeMap.wf → s.status = .running →
    s.ip < s.config.tapeCapacity → Memory.get s.tape s.ip = s.config.opcodeMap.byteOf k →
    k.format = .i →
    (s.config.tapeCapacity < s.ip + 5 → step s = .next { s with status := .faulted .boundsError }) ∧
    (s.ip + 5 ≤ s.config.tapeCapacity →
      fetch s = .instr (k.instr (decodeWord (Memory.get s.tape (s.ip + 1)) (Memory.get s.tape (s.ip + 2))
        (Memory.get s.tape (s.ip + 3)) (Memory.get s.tape (s.ip + 4)))))

/-- R91: an instruction that does not jump, call, return, halt or fault ends with `IP` at `IP + length`,
and that is at most `C`. (A READ ends only once its answer is there, R191.) -/
def Obligations.NextIpIsIpPlusLength : Prop :=
  (∀ (s : State) (i : Instr), fetch s = .instr i → s.ip + i.length ≤ s.config.tapeCapacity) ∧
  (∀ (s t : State) (i : Instr), fetch s = .instr i → step s = .next t → t.status = .running →
    (i = .readInt → s.numberInput ≠ []) → (i = .readString → s.textInput ≠ []) →
    i ≠ .call → i ≠ .ret → s.flags.condition i.mnemonic = false →
    t.ip = s.ip + i.length)

/-- `IP = C` is reached only by falling through the last bytes of the tape (spec/10_state.md R22): the
instruction there ends at `C`, and it is no CALL, no RET and no taken jump. -/
def Obligations.CapacityReachedOnlyByFallingThrough : Prop :=
  ∀ s t : State, step s = .next t → s.ip ≠ s.config.tapeCapacity → t.ip = s.config.tapeCapacity →
    ∃ i : Instr, fetch s = .instr i ∧ s.ip + i.length = s.config.tapeCapacity ∧
      i ≠ .call ∧ i ≠ .ret ∧ s.flags.condition i.mnemonic = false

/-- R32: a step is taken only in `Running`, and neither a step nor an answer of the host leaves
`Halted` or `Faulted`. -/
def Obligations.EndedStatesAreFinal : Prop :=
  (∀ s t : State, step s = .next t → s.status = .running) ∧
  (∀ s t : State, s.Ended → Moves s t → t.status = s.status)

/-- No instruction is refused and none stops the model: in `Running` every step answers a next state
(R90, R213; a READ that waits answers the same state, log 4; a fault is a next state, log 5). -/
def Obligations.RunningAlwaysSteps : Prop :=
  (∀ (i : Instr) (s : State), ∃ t, exec i s = .next t) ∧
  (∀ s : State, s.status = .running → ∃ t, step s = .next t)

/-- How the status changes in a step: HALT halts, the fetch at `IP = C` halts with `IP` still `C`, a
fault keeps `IP` (spec/70_reset_and_hazards.md R234; the final `IP` after HALT is left unsaid, as R234 asks). -/
def Obligations.StatusAfterAStep : Prop :=
  ∀ s t : State, step s = .next t →
    t.status = .running ∨
    (t.status = .halted .haltInstruction ∧ fetch s = .instr .halt) ∨
    (t.status = .halted .endOfTape ∧ s.ip = s.config.tapeCapacity ∧ t.ip = s.ip) ∨
    (∃ k, t.status = .faulted k ∧ t.ip = s.ip)

/-! ### Reset -/

/-- R37 to R41, R231: what a load leaves, and when it fails. -/
def Obligations.LoadSetsTheResetValues : Prop :=
  (∀ (c : Config) (image : List Byte), image.length ≤ c.tapeCapacity →
    ∃ s, load c image = .loaded s ∧ s.config = c ∧
      (∀ a, Memory.get s.tape a = image.getD a 0) ∧ s.ip = 0 ∧ s.stack = [] ∧
      s.flags = ⟨false, false, false, false, false, false, false, false⟩ ∧ s.status = .running) ∧
  (∀ (c : Config) (image : List Byte), c.tapeCapacity < image.length →
    load c image = .capacityError ∧ (load c image).code = 7)

/-- `State.reset` is the load of the empty image under the default parameters (log 6), and every
loaded state, `State.reset` among them, meets the invariant. -/
def Obligations.ResetMeetsTheInvariant : Prop :=
  load Config.default [] = .loaded State.reset ∧ State.reset.Inv ∧
  (∀ (c : Config) (image : List Byte) (s : State), c.wf → load c image = .loaded s → s.Inv)

/-! ### Invariants -/

/-- Every step keeps the invariant: the parameters as admitted, the tape in canonical form within its
`C` bytes (R21), `IP` in `0 .. C` (R22), the stack within its capacity (R25), the flag families as CMP
and TEST leave them (R160, R161). -/
def Obligations.EveryStepKeepsTheInvariant : Prop :=
  ∀ s t : State, s.Inv → step s = .next t → t.Inv

/-- Every state a run of any instance reaches, with any image, any parameters the spec admits and any
answers of the host, meets the invariant. -/
def Obligations.ReachableStatesMeetTheInvariant : Prop :=
  ∀ s : State, Reachable s → s.Inv

/-- A family that CMP or TEST has written has exactly one of its three order flags true, and the
negated flag is the negation of the first (R160, R161): in every reachable state the relational family
is untouched or so, and the sign-test family is untouched or so. -/
def Obligations.ReachableFlagsAreConsistent : Prop :=
  ∀ s : State, Reachable s →
    ((s.flags.equal ∨ s.flags.notEqual ∨ s.flags.above ∨ s.flags.below) →
      (s.flags.notEqual = !s.flags.equal) ∧ (s.flags.notEqual = (s.flags.above ^^ s.flags.below)) ∧
      ¬ (s.flags.above ∧ s.flags.below)) ∧
    ((s.flags.zero ∨ s.flags.notZero ∨ s.flags.aboveZero ∨ s.flags.belowZero) →
      (s.flags.notZero = !s.flags.zero) ∧ (s.flags.notZero = (s.flags.aboveZero ^^ s.flags.belowZero)) ∧
      ¬ (s.flags.aboveZero ∧ s.flags.belowZero))

/-- Two tapes in canonical form that read the same everywhere are the same data (log 7). -/
def Obligations.EqualTapesAreEqualData : Prop :=
  ∀ m m' : Memory, Memory.wf m → Memory.wf m' → (∀ a, Memory.get m a = Memory.get m' a) → m = m'

/-! ### Faults -/

/-- R13: a fault leaves the state exactly as it was but for the status; only an input consumed by a
READ can come before it. -/
def Obligations.FaultLeavesTheStateUnchanged : Prop :=
  ∀ (s t : State) (k : FaultKind), step s = .next t → t.status = .faulted k →
    t = { s with status := .faulted k } ∨
    (fetch s = .instr .readInt ∧ ∃ r more, s.numberInput = r :: more ∧
      t = { s with status := .faulted k, numberInput := more }) ∨
    (fetch s = .instr .readString ∧ ∃ r more, s.textInput = r :: more ∧
      t = { s with status := .faulted k, textInput := more })

/-- R26: an instruction raises `StackUnderflowError` exactly when the stack holds fewer words than it
pops, whatever else is wrong, and the stack keeps every word. -/
def Obligations.UnderflowExactlyWhenTooFewOperands : Prop :=
  ∀ (i : Instr) (s : State), s.status = .running →
    (exec i s = .next { s with status := .faulted .stackUnderflowError } ↔
      s.stack.length < i.mnemonic.pops) ∧
    (∀ t, exec i s = .next t → t.status = .faulted .stackUnderflowError → t.stack = s.stack)

/-- R25: with a capacity `N` the stack never comes to hold more than `N` words, and the instructions
that push more than they pop raise `StackOverflowError` exactly where the room is missing (the depth
being enough); unbounded, none does. -/
def Obligations.OverflowExactlyWhenNoRoom : Prop :=
  (∀ (s t : State) (n : Nat), s.config.stackCapacity = some n → s.stack.length ≤ n →
    step s = .next t → t.stack.length ≤ n) ∧
  (∀ (i : Instr) (s : State), s.status = .running →
    (exec i s = .next { s with status := .faulted .stackOverflowError } ↔
      i.mnemonic.pops ≤ s.stack.length ∧ i.mnemonic.pops < i.mnemonic.pushes ∧
      ∃ n, s.config.stackCapacity = some n ∧
        n < s.stack.length + (i.mnemonic.pushes - i.mnemonic.pops)))

/-- Which instructions raise which fault (spec/60_exceptions.md R210). -/
def Obligations.FaultKindsByInstruction : Prop :=
  ∀ (i : Instr) (s t : State) (k : FaultKind), s.status = .running → exec i s = .next t →
    t.status = .faulted k →
    match k with
    | .boundsError =>
      i ∈ [.load, .store, .printString, .readString, .call, .ret] ∨ s.flags.condition i.mnemonic = true
    | .stackUnderflowError => 0 < i.mnemonic.pops
    | .arithmeticError => (i = .div ∨ i = .mod) ∧ ∃ a rest, s.stack = 0 :: a :: rest
    | .unknownOpcodeError => False
    | .ioFormatError => i = .readInt
    | .stackOverflowError =>
      i.mnemonic ∈ [.push, .const, .dup, .readInt] ∧ s.config.stackCapacity ≠ none

/-! ### Basic instructions -/

/-- R110 and R112: NOP and POP. -/
def Obligations.NopAndPopResults : Prop :=
  encode defaultOpcodeMap .nop = [0x00] ∧ encode defaultOpcodeMap .pop = [0x02] ∧
  (∀ s : State, exec .nop s = .next { s with ip := s.ip + 1 }) ∧
  (∀ (s : State) (x : Word) (rest : List Word), s.stack = x :: rest →
    exec .pop s = .next { s with stack := rest, ip := s.ip + 1 }) ∧
  (∀ s : State, s.stack = [] → exec .pop s = .next { s with status := .faulted .stackUnderflowError })

/-- R111 and R113: PUSH and CONST push any immediate, or overflow; with their immediate outside the
tape they raise `BoundsError`. -/
def Obligations.PushAndConstResults : Prop :=
  ∀ imm : Word,
    encode defaultOpcodeMap (.push imm) = 0x01 :: encodeWord imm ∧
    encode defaultOpcodeMap (.const imm) = 0x03 :: encodeWord imm ∧
    (∀ s : State, s.HasRoom →
      exec (.push imm) s = .next { s with stack := imm :: s.stack, ip := s.ip + 5 } ∧
      exec (.const imm) s = .next { s with stack := imm :: s.stack, ip := s.ip + 5 }) ∧
    (∀ s : State, ¬ s.HasRoom →
      exec (.push imm) s = .next { s with status := .faulted .stackOverflowError } ∧
      exec (.const imm) s = .next { s with status := .faulted .stackOverflowError }) ∧
    (∀ s : State, s.config.opcodeMap.wf → s.status = .running → s.ip < s.config.tapeCapacity →
      (Memory.get s.tape s.ip = s.config.opcodeMap.push ∨
        Memory.get s.tape s.ip = s.config.opcodeMap.const) →
      s.config.tapeCapacity < s.ip + 5 → step s = .next { s with status := .faulted .boundsError })

/-- PUSH then POP leaves the stack, the flags, the tape and everything else as before, six bytes on
(spec/95_test_vectors.md W2). -/
def Obligations.PushThenPopLeavesTheStack : Prop :=
  ∀ (s : State) (v : Word), s.HasRoom →
    ∃ t, exec (.push v) s = .next t ∧ exec .pop t = .next { s with ip := s.ip + 6 }

/-- A zero byte decodes as NOP under a map that gives NOP the byte 0, so an empty tape runs from any
address to its end and halts there (spec/40_basic.md R110, corner case). -/
def Obligations.ZeroTapeRunsToItsEnd : Prop :=
  ∀ s : State, s.config.opcodeMap.nop = 0 → s.status = .running →
    s.tape = [] → s.ip ≤ s.config.tapeCapacity →
    Host.Core.run core (s.config.tapeCapacity - s.ip + 1) s =
      .next { s with ip := s.config.tapeCapacity, status := .halted .endOfTape }

/-! ### Memory access -/

/-- R120: LOAD. -/
def Obligations.LoadResult : Prop :=
  encode defaultOpcodeMap .load = [0x04] ∧
  (∀ (s : State) (a : Word) (rest : List Word), s.stack = a :: rest →
    0 ≤ a.toInt → a.toInt + 4 ≤ s.config.tapeCapacity →
    exec .load s = .next { s with
      stack := decodeWord (Memory.get s.tape a.toNat) (Memory.get s.tape (a.toNat + 1))
        (Memory.get s.tape (a.toNat + 2)) (Memory.get s.tape (a.toNat + 3)) :: rest,
      ip := s.ip + 1 }) ∧
  (∀ (s : State) (a : Word) (rest : List Word), s.stack = a :: rest →
    (a.toInt < 0 ∨ s.config.tapeCapacity < a.toInt + 4) →
    exec .load s = .next { s with status := .faulted .boundsError }) ∧
  (∀ s : State, s.stack = [] → exec .load s = .next { s with status := .faulted .stackUnderflowError })

/-- R121: STORE: the four bytes of the value at the address, every other byte, and everything else, as before. -/
def Obligations.StoreResult : Prop :=
  encode defaultOpcodeMap .store = [0x05] ∧
  (∀ (s : State) (v a : Word) (rest : List Word), Memory.wf s.tape → s.stack = v :: a :: rest →
    0 ≤ a.toInt → a.toInt + 4 ≤ s.config.tapeCapacity →
    ∃ m : Memory, exec .store s = .next { s with tape := m, stack := rest, ip := s.ip + 1 } ∧
      (∀ j < 4, Memory.get m (a.toNat + j) = v.extractLsb' (8 * j) 8) ∧
      (∀ x, x < a.toNat ∨ a.toNat + 4 ≤ x → Memory.get m x = Memory.get s.tape x)) ∧
  (∀ (s : State) (v a : Word) (rest : List Word), s.stack = v :: a :: rest →
    (a.toInt < 0 ∨ s.config.tapeCapacity < a.toInt + 4) →
    exec .store s = .next { s with status := .faulted .boundsError }) ∧
  (∀ s : State, s.stack.length < 2 →
    exec .store s = .next { s with status := .faulted .stackUnderflowError })

/-- A word stored at an address is the word loaded from it, whatever ran before (R57, R65, R120, R121). -/
def Obligations.StoreThenLoadGivesTheValue : Prop :=
  ∀ (s : State) (v a : Word) (rest : List Word), Memory.wf s.tape → s.stack = v :: a :: rest →
    0 ≤ a.toInt → a.toInt + 4 ≤ s.config.tapeCapacity →
    ∃ t, exec .store s = .next t ∧
      ∀ u : State, u.tape = t.tape → u.config = t.config → ∀ below, u.stack = a :: below →
        exec .load u = .next { u with stack := v :: below, ip := u.ip + 1 }

/-- A word stored at `a` and loaded at `a + 1`, unaligned, is its bytes 1 to 3 and the byte at `a + 4`
as the most significant (R59, R60). -/
def Obligations.OverlappingLoadAfterStore : Prop :=
  ∀ (s : State) (v a : Word) (rest : List Word), Memory.wf s.tape → s.stack = v :: a :: rest →
    0 ≤ a.toInt → a.toInt + 5 ≤ s.config.tapeCapacity →
    ∃ t, exec .store s = .next t ∧
      ∀ (u : State) (a' : Word) (below : List Word), u.tape = t.tape → u.config = t.config →
        u.stack = a' :: below → a'.toInt = a.toInt + 1 →
        ∃ w, exec .load u = .next { u with stack := w :: below, ip := u.ip + 1 } ∧
          w = v.ushiftRight 8 ||| ((Memory.get s.tape (a.toNat + 4)).zeroExtend 32).shiftLeft 24

/-- A STORE or a READ_STRING into code is seen by the very next fetch and by every later one (R68,
R69, R239): wherever it writes, its own bytes and the next ones included, it completes, and an
instruction of either format runs next, or later on that tape, where the written bytes and the bytes
around them spell its encoding. -/
def Obligations.StoredInstructionRunsNext : Prop :=
  (∀ (s : State) (v a : Word) (rest : List Word), s.config.opcodeMap.wf → Memory.wf s.tape →
    s.status = .running → fetch s = .instr .store → s.stack = v :: a :: rest →
    0 ≤ a.toInt → a.toInt + 4 ≤ s.config.tapeCapacity →
    ∃ t, step s = .next t ∧ t.ip = s.ip + 1 ∧ t.status = .running ∧ t.config = s.config ∧
      ∀ (u : State) (i : Instr), u.config = t.config → u.tape = t.tape → u.status = .running →
        u.ip + i.length ≤ s.config.tapeCapacity →
        (∀ j < i.length, (encode s.config.opcodeMap i)[j]? = some
          (if a.toNat ≤ u.ip + j ∧ u.ip + j < a.toNat + 4 then
            v.extractLsb' (8 * (u.ip + j - a.toNat)) 8
          else Memory.get s.tape (u.ip + j))) →
        step u = exec i u) ∧
  (∀ (s : State) (bufLen addr : Word) (rest : List Word) (bs : List Byte) (more : List (List Byte)),
    s.config.opcodeMap.wf → Memory.wf s.tape → s.status = .running → fetch s = .instr .readString →
    s.stack = bufLen :: addr :: rest → s.textInput = bs :: more → bs.length ≤ bufLen.toInt →
    0 ≤ addr.toInt → addr.toInt + bs.length ≤ s.config.tapeCapacity →
    ∃ t, step s = .next t ∧ t.ip = s.ip + 1 ∧ t.status = .running ∧ t.config = s.config ∧
      ∀ (u : State) (i : Instr), u.config = t.config → u.tape = t.tape → u.status = .running →
        u.ip + i.length ≤ s.config.tapeCapacity →
        (∀ j < i.length, (encode s.config.opcodeMap i)[j]? =
          if addr.toNat ≤ u.ip + j ∧ u.ip + j < addr.toNat + bs.length then
            bs[u.ip + j - addr.toNat]?
          else some (Memory.get s.tape (u.ip + j))) →
        step u = exec i u)

/-! ### Arithmetic -/

/-- R130, R131, R132, R133, R136: ADD, SUB and MUL wrap, `b` being the top and `a` the word below. -/
def Obligations.AddSubMulResults : Prop :=
  encode defaultOpcodeMap .add = [0x06] ∧ encode defaultOpcodeMap .sub = [0x07] ∧
  encode defaultOpcodeMap .mul = [0x08] ∧
  (∀ (s : State) (b a : Word) (rest : List Word), s.stack = b :: a :: rest →
    exec .add s = .next { s with stack := wrap32 (a.toInt + b.toInt) :: rest, ip := s.ip + 1 } ∧
    exec .sub s = .next { s with stack := wrap32 (a.toInt - b.toInt) :: rest, ip := s.ip + 1 } ∧
    exec .mul s = .next { s with stack := wrap32 (a.toInt * b.toInt) :: rest, ip := s.ip + 1 }) ∧
  (∀ s : State, s.stack.length < 2 → ∀ i ∈ [Instr.add, .sub, .mul],
    exec i s = .next { s with status := .faulted .stackUnderflowError })

/-- R134 and R135: DIV and MOD give the quotient rounded toward zero and the remainder with the sign
of the dividend, for every sign combination; a zero divisor raises `ArithmeticError`, after the depth
check. -/
def Obligations.DivModResults : Prop :=
  encode defaultOpcodeMap .div = [0x09] ∧ encode defaultOpcodeMap .mod = [0x0A] ∧
  (∀ (s : State) (b a : Word) (rest : List Word), s.stack = b :: a :: rest → b.toInt ≠ 0 →
    ∃ q r : Int, a.toInt = b.toInt * q + r ∧ |r| < |b.toInt| ∧
      (0 ≤ a.toInt → 0 ≤ r) ∧ (a.toInt ≤ 0 → r ≤ 0) ∧
      exec .div s = .next { s with stack := wrap32 q :: rest, ip := s.ip + 1 } ∧
      (∃ w : Word, w.toInt = r ∧
        exec .mod s = .next { s with stack := w :: rest, ip := s.ip + 1 })) ∧
  (∀ (s : State) (b a : Word) (rest : List Word), s.stack = b :: a :: rest → b.toInt = 0 →
    exec .div s = .next { s with status := .faulted .arithmeticError } ∧
    exec .mod s = .next { s with status := .faulted .arithmeticError }) ∧
  (∀ s : State, s.stack.length < 2 →
    exec .div s = .next { s with status := .faulted .stackUnderflowError } ∧
    exec .mod s = .next { s with status := .faulted .stackUnderflowError })

/-- `wrap32` changes a quotient only for `-2^31 / -1`, where the result is `-2^31` (R134): everywhere
else DIV's result is the exact truncated quotient. -/
def Obligations.DivIsExactButForOneCase : Prop :=
  ∀ (s t : State) (b a : Word) (rest : List Word), s.stack = b :: a :: rest → b.toInt ≠ 0 →
    exec .div s = .next t →
    ∃ w : Word, t.stack = w :: rest ∧
      (w.toInt = a.toInt.tdiv b.toInt ∨
        (a.toInt = -(2 ^ 31) ∧ b.toInt = -1 ∧ w.toInt = -(2 ^ 31)))

/-! ### Call and return -/

/-- R140: CALL. The return address is a word in every state that meets the invariant's bounds on `C`
and `IP`, which are the premises here. -/
def Obligations.CallResult : Prop :=
  encode defaultOpcodeMap .call = [0x0B] ∧
  (∀ (s : State) (t : Word) (rest : List Word), s.stack = t :: rest →
    0 ≤ t.toInt → t.toInt < s.config.tapeCapacity →
    s.config.tapeCapacity ≤ 2 ^ 31 - 1 → s.ip < s.config.tapeCapacity →
    ∃ w : Word, w.toInt = s.ip + 1 ∧
      exec .call s = .next { s with stack := w :: rest, ip := t.toNat }) ∧
  (∀ (s : State) (t : Word) (rest : List Word), s.stack = t :: rest →
    (t.toInt < 0 ∨ s.config.tapeCapacity ≤ t.toInt) →
    exec .call s = .next { s with status := .faulted .boundsError }) ∧
  (∀ s : State, s.stack = [] → exec .call s = .next { s with status := .faulted .stackUnderflowError })

/-- R141: RET, to any word in `0 .. C-1`, pushed by a CALL or not. -/
def Obligations.RetResult : Prop :=
  encode defaultOpcodeMap .ret = [0x0C] ∧
  (∀ (s : State) (t : Word) (rest : List Word), s.stack = t :: rest →
    0 ≤ t.toInt → t.toInt < s.config.tapeCapacity →
    exec .ret s = .next { s with stack := rest, ip := t.toNat }) ∧
  (∀ (s : State) (t : Word) (rest : List Word), s.stack = t :: rest →
    (t.toInt < 0 ∨ s.config.tapeCapacity ≤ t.toInt) →
    exec .ret s = .next { s with status := .faulted .boundsError }) ∧
  (∀ s : State, s.stack = [] → exec .ret s = .next { s with status := .faulted .stackUnderflowError })

/-- CALL leaves the return address on top at entry to the callee, and a RET in any later state that
has what CALL left on top of its stack resumes at the instruction after the CALL (R142;
spec/95_test_vectors.md W7). -/
def Obligations.RetResumesAfterTheCall : Prop :=
  ∀ (s : State) (a : Word) (rest : List Word), s.stack = a :: rest →
    0 ≤ a.toInt → a.toInt < s.config.tapeCapacity → s.config.tapeCapacity ≤ 2 ^ 31 - 1 →
    s.ip + 1 < s.config.tapeCapacity →
    ∃ (t : State) (w : Word), exec .call s = .next t ∧ t.stack = w :: rest ∧ t.ip = a.toNat ∧
      ∀ (u : State) (below : List Word), u.config = s.config → u.stack = w :: below →
        exec .ret u = .next { u with stack := below, ip := s.ip + 1 }

/-! ### Stack manipulation -/

/-- R150 and R151: DUP and SWAP; SWAP puts the old `S[1]` on top. -/
def Obligations.DupAndSwapResults : Prop :=
  encode defaultOpcodeMap .dup = [0x0D] ∧ encode defaultOpcodeMap .swap = [0x0E] ∧
  (∀ (s : State) (v : Word) (rest : List Word), s.stack = v :: rest → s.HasRoom →
    exec .dup s = .next { s with stack := v :: v :: rest, ip := s.ip + 1 }) ∧
  (∀ (s : State) (v : Word) (rest : List Word), s.stack = v :: rest → ¬ s.HasRoom →
    exec .dup s = .next { s with status := .faulted .stackOverflowError }) ∧
  (∀ s : State, s.stack = [] →
    exec .dup s = .next { s with status := .faulted .stackUnderflowError }) ∧
  (∀ (s : State) (x y : Word) (rest : List Word), s.stack = x :: y :: rest →
    exec .swap s = .next { s with stack := y :: x :: rest, ip := s.ip + 1 }) ∧
  (∀ s : State, s.stack.length < 2 →
    exec .swap s = .next { s with status := .faulted .stackUnderflowError })

/-! ### Compare and test -/

/-- R160: CMP writes the relational family by the exact signed order and nothing of the other family. -/
def Obligations.CmpResult : Prop :=
  encode defaultOpcodeMap .cmp = [0x0F] ∧
  (∀ (s : State) (b a : Word) (rest : List Word), s.stack = b :: a :: rest →
    exec .cmp s = .next { s with
      stack := rest, ip := s.ip + 1,
      flags := { s.flags with
        equal := decide (a = b), notEqual := decide (a ≠ b),
        above := b.slt a, below := a.slt b } }) ∧
  (∀ s : State, s.stack.length < 2 →
    exec .cmp s = .next { s with status := .faulted .stackUnderflowError })

/-- R161: TEST writes the sign-test family from the sign of the word and nothing of the other family. -/
def Obligations.TestResult : Prop :=
  encode defaultOpcodeMap .test = [0x10] ∧
  (∀ (s : State) (a : Word) (rest : List Word), s.stack = a :: rest →
    exec .test s = .next { s with
      stack := rest, ip := s.ip + 1,
      flags := { s.flags with
        zero := decide (a = 0), notZero := decide (a ≠ 0),
        aboveZero := (0 : Word).slt a, belowZero := a.slt 0 } }) ∧
  (∀ s : State, s.stack = [] → exec .test s = .next { s with status := .faulted .stackUnderflowError })

/-- R28: no instruction but CMP changes a relational flag and none but TEST a sign-test flag; and
setting the flags otherwise changes nothing else of what an instruction does, unless it is a
conditional jump. -/
def Obligations.FlagsWrittenAndReadOnlyByTheirUsers : Prop :=
  (∀ (i : Instr) (s t : State), exec i s = .next t →
    (i ≠ .cmp → t.flags.equal = s.flags.equal ∧ t.flags.notEqual = s.flags.notEqual ∧
      t.flags.above = s.flags.above ∧ t.flags.below = s.flags.below) ∧
    (i ≠ .test → t.flags.zero = s.flags.zero ∧ t.flags.notZero = s.flags.notZero ∧
      t.flags.aboveZero = s.flags.aboveZero ∧ t.flags.belowZero = s.flags.belowZero)) ∧
  (∀ (i : Instr) (s t : State) (f : Flags),
    i.mnemonic ∉ [.jz, .jnz, .jbz, .jaz, .jl, .jle, .je, .jne, .ja, .jae] → exec i s = .next t →
    ∃ t', exec i { s with flags := f } = .next t' ∧ { t' with flags := t.flags } = t)

/-! ### Jumps -/

/-- R170, R171 to R181: JMP and the ten conditional jumps: their opcodes and conditions are those of
the table; a taken jump adopts a target in `0 .. C-1` and faults on any other; a jump not taken goes on
and does not check its target; the immediate's own bytes must be in the tape, taken or not. -/
def Obligations.JumpResults : Prop :=
  ∀ (s : State) (imm : Word),
    ∀ jump ∈ [(Instr.jmp imm, 0x11, true), (.jz imm, 0x12, s.flags.zero),
        (.jnz imm, 0x13, s.flags.notZero), (.jbz imm, 0x14, s.flags.belowZero),
        (.jaz imm, 0x15, s.flags.aboveZero), (.jl imm, 0x16, s.flags.below),
        (.jle imm, 0x17, s.flags.below || s.flags.equal), (.je imm, 0x18, s.flags.equal),
        (.jne imm, 0x19, s.flags.notEqual), (.ja imm, 0x1A, s.flags.above),
        (.jae imm, 0x1B, s.flags.above || s.flags.equal)],
      encode defaultOpcodeMap jump.1 = jump.2.1 :: encodeWord imm ∧
      (jump.2.2 = true → 0 ≤ imm.toInt → imm.toInt < s.config.tapeCapacity →
        exec jump.1 s = .next { s with ip := imm.toNat }) ∧
      (jump.2.2 = true → (imm.toInt < 0 ∨ s.config.tapeCapacity ≤ imm.toInt) →
        exec jump.1 s = .next { s with status := .faulted .boundsError }) ∧
      (jump.2.2 = false → exec jump.1 s = .next { s with ip := s.ip + 5 }) ∧
      (s.config.opcodeMap.wf → s.status = .running → s.ip < s.config.tapeCapacity →
        Memory.get s.tape s.ip = s.config.opcodeMap.byteOf jump.1.mnemonic →
        s.config.tapeCapacity < s.ip + 5 →
        step s = .next { s with status := .faulted .boundsError })

/-- A JMP to its own address runs forever with no fault (spec/46_jumps.md R171;
spec/70_reset_and_hazards.md R235): whatever the host answers meanwhile, every state reached is
`Running` at the same address. -/
def Obligations.JumpToItselfRunsForever : Prop :=
  ∀ (s : State) (imm : Word), s.config.opcodeMap.wf → s.status = .running → imm.toInt = s.ip →
    s.memRead s.ip 5 = some (encode s.config.opcodeMap (.jmp imm)) →
    s.SafeRun ∧ ∀ t, Moves s t → t.status = .running ∧ t.ip = s.ip ∧ ∃ u, step t = .next u

/-! ### Input and output -/

/-- R192: PRINT_INT. -/
def Obligations.PrintIntResult : Prop :=
  encode defaultOpcodeMap .printInt = [0x1C] ∧
  (∀ (s : State) (n : Word) (rest : List Word), s.stack = n :: rest →
    exec .printInt s = .next { s with
      stack := rest, output := s.output ++ [.number n], ip := s.ip + 1 }) ∧
  (∀ s : State, s.stack = [] →
    exec .printInt s = .next { s with status := .faulted .stackUnderflowError })

/-- R193: PRINT_STRING. -/
def Obligations.PrintStringResult : Prop :=
  encode defaultOpcodeMap .printString = [0x1D] ∧
  (∀ (s : State) (len addr : Word) (rest : List Word), s.stack = len :: addr :: rest →
    0 ≤ len.toInt → 0 ≤ addr.toInt → addr.toInt + len.toInt ≤ s.config.tapeCapacity →
    ∃ bs : List Byte, bs.length = len.toNat ∧
      (∀ j < len.toNat, bs[j]? = some (Memory.get s.tape (addr.toNat + j))) ∧
      exec .printString s = .next { s with
        stack := rest, output := s.output ++ [.text bs], ip := s.ip + 1 }) ∧
  (∀ (s : State) (len addr : Word) (rest : List Word), s.stack = len :: addr :: rest →
    (len.toInt < 0 ∨ addr.toInt < 0 ∨ s.config.tapeCapacity < addr.toInt + len.toInt) →
    exec .printString s = .next { s with status := .faulted .boundsError }) ∧
  (∀ s : State, s.stack.length < 2 →
    exec .printString s = .next { s with status := .faulted .stackUnderflowError })

/-- R194: READ_INT on an answer: a word is pushed; malformed input or a number that is no word faults,
its input gone; a full stack faults before the input is requested. -/
def Obligations.ReadIntResult : Prop :=
  encode defaultOpcodeMap .readInt = [0x1E] ∧
  (∀ (s : State) (w : Word) (more : List NumberAnswer), s.HasRoom →
    s.numberInput = .number w.toInt :: more →
    exec .readInt s = .next { s with
      numberInput := more, stack := w :: s.stack, ip := s.ip + 1 }) ∧
  (∀ (s : State) (n : Int) (more : List NumberAnswer), s.HasRoom →
    s.numberInput = .number n :: more → (n < -(2 ^ 31) ∨ 2 ^ 31 ≤ n) →
    exec .readInt s = .next { s with numberInput := more, status := .faulted .ioFormatError }) ∧
  (∀ (s : State) (more : List NumberAnswer), s.HasRoom → s.numberInput = .malformed :: more →
    exec .readInt s = .next { s with numberInput := more, status := .faulted .ioFormatError }) ∧
  (∀ s : State, ¬ s.HasRoom →
    exec .readInt s = .next { s with status := .faulted .stackOverflowError })

/-- R195: READ_STRING on an answer: a text that fits is written, its bytes and no other, and its
length pushed; a longer one pushes -1 and writes nothing, whatever the address; a text that fits the
buffer but not the tape faults, its input gone. -/
def Obligations.ReadStringResult : Prop :=
  encode defaultOpcodeMap .readString = [0x1F] ∧
  (∀ (s : State) (bufLen addr : Word) (rest : List Word) (bs : List Byte) (more : List (List Byte)),
    Memory.wf s.tape → s.stack = bufLen :: addr :: rest → s.textInput = bs :: more →
    bs.length ≤ bufLen.toInt → 0 ≤ addr.toInt → addr.toInt + bs.length ≤ s.config.tapeCapacity →
    ∃ (m : Memory) (w : Word), w.toInt = bs.length ∧
      exec .readString s = .next { s with
        textInput := more, tape := m, stack := w :: rest, ip := s.ip + 1 } ∧
      (∀ j, j < bs.length → some (Memory.get m (addr.toNat + j)) = bs[j]?) ∧
      (∀ x, x < addr.toNat ∨ addr.toNat + bs.length ≤ x → Memory.get m x = Memory.get s.tape x)) ∧
  (∀ (s : State) (bufLen addr : Word) (rest : List Word) (bs : List Byte) (more : List (List Byte)),
    s.stack = bufLen :: addr :: rest → s.textInput = bs :: more → bufLen.toInt < bs.length →
    exec .readString s = .next { s with
      textInput := more, stack := (-1) :: rest, ip := s.ip + 1 }) ∧
  (∀ (s : State) (bufLen addr : Word) (rest : List Word) (bs : List Byte) (more : List (List Byte)),
    s.stack = bufLen :: addr :: rest → s.textInput = bs :: more → bs.length ≤ bufLen.toInt →
    (addr.toInt < 0 ∨ s.config.tapeCapacity < addr.toInt + bs.length) →
    exec .readString s = .next { s with textInput := more, status := .faulted .boundsError }) ∧
  (∀ s : State, s.stack.length < 2 →
    exec .readString s = .next { s with status := .faulted .stackUnderflowError })

/-- A READ whose checks pass and whose request the host has not answered waits: the state is unchanged
(spec/10_state.md R36; R191), for as long as the host does not answer, and it goes on when the
host does (R222), as R194 and R195 say of each answer. That a wait is rendered as a step to the same state is the model's choice (log 4). -/
def Obligations.ReadWaitsForTheHost : Prop :=
  (∀ s : State, s.HasRoom → s.numberInput = [] → exec .readInt s = .next s) ∧
  (∀ s : State, 2 ≤ s.stack.length → s.textInput = [] → exec .readString s = .next s) ∧
  (∀ (s : State) (n : Nat), s.status = .running →
    (fetch s = .instr .readInt ∧ s.HasRoom ∧ s.numberInput = [] ∨
      fetch s = .instr .readString ∧ 2 ≤ s.stack.length ∧ s.textInput = []) →
    Host.Core.run core n s = .next s) ∧
  (∀ (s : State) (w : Word), s.HasRoom → s.numberInput = [] →
    exec .readInt (s.answerNumber (.number w.toInt)) =
      .next { s with stack := w :: s.stack, ip := s.ip + 1 }) ∧
  (∀ (s : State) (r : NumberAnswer), s.HasRoom → s.numberInput = [] →
    (∀ w : Word, r ≠ .number w.toInt) →
    exec .readInt (s.answerNumber r) = .next { s with status := .faulted .ioFormatError }) ∧
  (∀ (s : State) (bufLen addr : Word) (rest : List Word) (bs : List Byte), Memory.wf s.tape →
    s.stack = bufLen :: addr :: rest → s.textInput = [] →
    bs.length ≤ bufLen.toInt → 0 ≤ addr.toInt → addr.toInt + bs.length ≤ s.config.tapeCapacity →
    ∃ (m : Memory) (w : Word), w.toInt = bs.length ∧
      exec .readString (s.answerText bs) =
        .next { s with tape := m, stack := w :: rest, ip := s.ip + 1 } ∧
      (∀ j, j < bs.length → some (Memory.get m (addr.toNat + j)) = bs[j]?) ∧
      (∀ x, x < addr.toNat ∨ addr.toNat + bs.length ≤ x → Memory.get m x = Memory.get s.tape x)) ∧
  (∀ (s : State) (bufLen addr : Word) (rest : List Word) (bs : List Byte),
    s.stack = bufLen :: addr :: rest → s.textInput = [] → bufLen.toInt < bs.length →
    exec .readString (s.answerText bs) = .next { s with stack := (-1) :: rest, ip := s.ip + 1 }) ∧
  (∀ (s : State) (bufLen addr : Word) (rest : List Word) (bs : List Byte),
    s.stack = bufLen :: addr :: rest → s.textInput = [] → bs.length ≤ bufLen.toInt →
    (addr.toInt < 0 ∨ s.config.tapeCapacity < addr.toInt + bs.length) →
    exec .readString (s.answerText bs) = .next { s with status := .faulted .boundsError })

/-- Outputs stand in program order and are never taken back (R190): a step adds nothing or one
emission at the end, and only PRINT_INT and PRINT_STRING add one. -/
def Obligations.OutputGrowsInProgramOrder : Prop :=
  ∀ s t : State, step s = .next t →
    t.output = s.output ∨
    (fetch s = .instr .printInt ∧ ∃ v, t.output = s.output ++ [.number v]) ∨
    (fetch s = .instr .printString ∧ ∃ bs, t.output = s.output ++ [.text bs])

/-! ### HALT -/

/-- HALT halts with its cause and leaves everything else as it was but `IP` (spec/48_halt.md R200; the
final `IP` is left unsaid, as spec/70_reset_and_hazards.md R234 asks); no step follows it, and the
answers the host still gives change nothing of what the run ended with. -/
def Obligations.HaltResult : Prop :=
  encode defaultOpcodeMap .halt = [0x20] ∧
  ∀ s : State, ∃ t, exec .halt s = .next t ∧ t.status = .halted .haltInstruction ∧
    { t with ip := s.ip, status := s.status } = s ∧
    (∀ u, step t ≠ .next u) ∧ (∀ u, Moves t u → u.diagnostics = t.diagnostics)

/-! ### Frames -/

/-- An instruction of any form but STORE and READ_STRING leaves every byte of the tape (R61;
spec/90_conflicts.md C5); every instruction leaves the parameters, the opcode map among them
(spec/10_state.md R21, R34). Only PRINT_INT and PRINT_STRING touch the output, only READ_INT the
number answers, only READ_STRING the text answers; the status leaves what it was only for `Faulted`, or by HALT. -/
def Obligations.FrameOfEveryInstruction : Prop :=
  ∀ (i : Instr) (s t : State), exec i s = .next t →
    t.config = s.config ∧
    (i ≠ .store → i ≠ .readString → ∀ a, Memory.get t.tape a = Memory.get s.tape a) ∧
    (i ≠ .printInt → i ≠ .printString → t.output = s.output) ∧
    (i ≠ .readInt → t.numberInput = s.numberInput) ∧
    (i ≠ .readString → t.textInput = s.textInput) ∧
    (t.status = s.status ∨ (∃ k, t.status = .faulted k) ∨ i = .halt)

/-- How deep an instruction reaches into the stack: below the words the table of R84 says it pops,
every word stays, in its order; and an instruction that completes leaves the number of words the table
says. -/
def Obligations.StackFrame : Prop :=
  ∀ (i : Instr) (s t : State), exec i s = .next t → (∀ k, t.status ≠ .faulted k) →
    (i = .readInt → s.numberInput ≠ []) → (i = .readString → s.textInput ≠ []) →
    i.mnemonic.pops ≤ s.stack.length ∧
    ∃ top : List Word, top.length = i.mnemonic.pushes ∧
      t.stack = top ++ s.stack.drop i.mnemonic.pops

/-- STORE leaves every byte outside the four at the address `S[1]`, and every flag and every channel,
whether it completes or faults. -/
def Obligations.StoreFrame : Prop :=
  ∀ (s t : State) (v a : Word) (rest : List Word), Memory.wf s.tape → s.stack = v :: a :: rest →
    exec .store s = .next t →
    (∀ x : Nat, (x : Int) < a.toInt ∨ a.toInt + 4 ≤ x → Memory.get t.tape x = Memory.get s.tape x) ∧
    t.flags = s.flags ∧ t.config = s.config ∧ t.numberInput = s.numberInput ∧
    t.textInput = s.textInput ∧ t.output = s.output

/-- READ_STRING leaves every byte outside the text's length at the address `S[1]`; where the text is
longer than the buffer, or the write is out of bounds, every byte. -/
def Obligations.ReadStringFrame : Prop :=
  ∀ (s t : State) (bufLen addr : Word) (rest : List Word) (bs : List Byte) (more : List (List Byte)),
    Memory.wf s.tape → s.stack = bufLen :: addr :: rest → s.textInput = bs :: more →
    exec .readString s = .next t →
    (∀ x : Nat, (x : Int) < addr.toInt ∨ addr.toInt + bs.length ≤ x →
      Memory.get t.tape x = Memory.get s.tape x) ∧
    ((bufLen.toInt < bs.length ∨ t.status = .faulted .boundsError ∧ s.status = .running) →
      t.tape = s.tape) ∧
    t.flags = s.flags ∧ t.config = s.config ∧ t.numberInput = s.numberInput ∧
    t.textInput = more ∧ t.output = s.output
end

