-- ==== Sys2Proof/Laws/Decode.lean ====
section
/-! SUPPORT. The decoder's table: what a lookup answers. Cite these, do not unfold the lookup. -/

namespace Sys2Proof

theorem Mnemonic.mem_all (k : Mnemonic) : k ∈ Mnemonic.all := by cases k <;> decide

/-- An entry found is that of a mnemonic whose byte was looked up. -/
theorem OpcodeMap.lookup_eq_some {m : OpcodeMap} {op : Byte} {e : Entry} (h : m.lookup op = some e) :
    ∃ k : Mnemonic, e = k.entry ∧ m.byteOf k = op := by
  unfold OpcodeMap.lookup at h
  obtain ⟨k, hk, rfl⟩ := Option.map_eq_some_iff.1 h
  exact ⟨k, rfl, by simpa using List.find?_some hk⟩

/-- A byte is unknown exactly when it is no mnemonic's. -/
theorem OpcodeMap.lookup_eq_none {m : OpcodeMap} {op : Byte} :
    m.lookup op = none ↔ ∀ k : Mnemonic, m.byteOf k ≠ op := by
  simp [OpcodeMap.lookup, Mnemonic.mem_all]

/-- Under an injective map the byte of a mnemonic finds that mnemonic's entry. -/
theorem OpcodeMap.lookup_byteOf {m : OpcodeMap} (h : m.wf) (k : Mnemonic) :
    m.lookup (m.byteOf k) = some k.entry := by
  rcases hl : m.lookup (m.byteOf k) with _ | e
  · exact absurd rfl (OpcodeMap.lookup_eq_none.1 hl k)
  · obtain ⟨k', rfl, hb⟩ := OpcodeMap.lookup_eq_some hl
    rw [List.inj_on_of_nodup_map h k'.mem_all k.mem_all hb]

end Sys2Proof
end

