-- ==== Sys2Proof/Laws/Memory.lean ====
section
/-! SUPPORT. The tape as stored: read after write, and that every write keeps the canonical form and
the tape's bounds. -/

namespace Sys2Proof.Machine

theorem Memory.wf_nil : Memory.wf [] := ⟨List.Pairwise.nil, by simp⟩

@[simp] theorem Memory.get_nil (a : Nat) : Memory.get [] a = 0 := rfl

theorem Memory.wf_tail {c : Host.Cell} {m : Memory} (h : Memory.wf (c :: m)) : Memory.wf m :=
  ⟨(List.pairwise_cons.1 h.1).2, fun d hd => h.2 d (List.mem_cons_of_mem _ hd)⟩

/-- An address below every listed one reads as 0. -/
theorem Memory.get_eq_zero_of_below {a : Nat} {m : Memory} (h : ∀ c ∈ m, a < c.1) :
    Memory.get m a = 0 := by
  induction m with
  | nil => rfl
  | cons c m ih =>
    have hc := h c (List.mem_cons_self ..)
    simp only [Memory.get]
    rw [if_neg (by omega)]
    exact ih fun d hd => h d (List.mem_cons_of_mem _ hd)

theorem Memory.get_cell (a : Nat) (b : Byte) {rest : Memory} (h : ∀ c ∈ rest, a < c.1) (x : Nat) :
    Memory.get (Memory.cell a b rest) x = if x = a then b else Memory.get rest x := by
  unfold Memory.cell
  split
  · next hb =>
    split
    · next hx => rw [hx, hb]; exact Memory.get_eq_zero_of_below h
    · rfl
  · simp only [Memory.get, eq_comm]

theorem Memory.wf_cell {a : Nat} {b : Byte} {rest : Memory} (hw : Memory.wf rest)
    (h : ∀ c ∈ rest, a < c.1) : Memory.wf (Memory.cell a b rest) := by
  unfold Memory.cell
  split
  · exact hw
  · next hb =>
    refine ⟨List.pairwise_cons.2 ⟨h, hw.1⟩, fun c hc => ?_⟩
    rcases List.mem_cons.1 hc with rfl | hc
    · exact hb
    · exact hw.2 c hc

/-- The cells above the cell at `x` of a tape in canonical form. -/
theorem Memory.above_head {x : Nat} {v : Byte} {m : Memory} (h : Memory.wf ((x, v) :: m)) :
    ∀ c ∈ m, x < c.1 := (List.pairwise_cons.1 h.1).1

theorem Memory.mem_cell {a : Nat} {b : Byte} {rest : Memory} {c : Host.Cell}
    (h : c ∈ Memory.cell a b rest) : c.1 = a ∨ c ∈ rest := by
  unfold Memory.cell at h
  split at h
  · exact .inr h
  · exact (List.mem_cons.1 h).imp (congrArg Prod.fst) id

/-- A listed cell after a write is at the written address or was listed before. -/
theorem Memory.mem_set {m : Memory} {a : Nat} {b : Byte} {c : Host.Cell}
    (h : c ∈ Memory.set m a b) : c.1 = a ∨ c ∈ m := by
  induction m with
  | nil => exact Memory.mem_cell h
  | cons d m ih =>
    obtain ⟨x, v⟩ := d
    simp only [Memory.set] at h
    split at h
    · rcases List.mem_cons.1 h with rfl | h
      · exact .inr (List.mem_cons_self ..)
      · exact (ih h).imp id (List.mem_cons_of_mem _)
    · split at h
      · exact (Memory.mem_cell h).imp id (List.mem_cons_of_mem _)
      · exact Memory.mem_cell h

/-- A write keeps the canonical form. -/
theorem Memory.set_wf {m : Memory} (h : Memory.wf m) (a : Nat) (b : Byte) :
    Memory.wf (Memory.set m a b) := by
  induction m with
  | nil => exact Memory.wf_cell h (by simp)
  | cons d m ih =>
    obtain ⟨x, v⟩ := d
    have hx := Memory.above_head h
    have ht := ih (Memory.wf_tail h)
    simp only [Memory.set]
    split
    · next hlt =>
      refine ⟨List.pairwise_cons.2 ⟨fun c hc => ?_, ht.1⟩, fun c hc => ?_⟩
      · rcases Memory.mem_set hc with hc | hc
        · simpa [hc] using hlt
        · exact hx c hc
      · rcases List.mem_cons.1 hc with rfl | hc
        · exact h.2 _ (List.mem_cons_self ..)
        · exact ht.2 c hc
    · split
      · next heq => exact Memory.wf_cell (Memory.wf_tail h) (heq ▸ hx)
      · refine Memory.wf_cell h fun c hc => ?_
        rcases List.mem_cons.1 hc with rfl | hc
        · simp only; omega
        · have := hx c hc; omega

/-- A write inside the tape lists no address outside it. -/
theorem Memory.set_within {n : Nat} {m : Memory} (h : Memory.within n m) {a : Nat} (ha : a < n)
    (b : Byte) : Memory.within n (Memory.set m a b) := fun c hc =>
  (Memory.mem_set hc).elim (fun e => e ▸ ha) (h c)

/-- Read after write: the written byte at its address, every other byte as before. -/
theorem Memory.get_set {m : Memory} (h : Memory.wf m) (a : Nat) (b : Byte) (x : Nat) :
    Memory.get (Memory.set m a b) x = if x = a then b else Memory.get m x := by
  induction m with
  | nil => exact Memory.get_cell a b (by simp) x
  | cons d m ih =>
    obtain ⟨y, v⟩ := d
    have hy := Memory.above_head h
    simp only [Memory.set]
    split
    · next hlt =>
      simp only [Memory.get, ih (Memory.wf_tail h)]
      by_cases hyx : y = x
      · rw [if_pos hyx, if_pos hyx, if_neg (by omega)]
      · rw [if_neg hyx, if_neg hyx]
    · split
      · next heq =>
        subst heq
        rw [Memory.get_cell y b hy]
        by_cases hx : x = y
        · simp [hx]
        · simp [hx, Memory.get, Ne.symm hx]
      · refine Memory.get_cell a b (fun c hc => ?_) x
        rcases List.mem_cons.1 hc with rfl | hc
        · simp only; omega
        · have := hy c hc; omega

theorem Memory.writeRun_wf {m : Memory} (h : Memory.wf m) (a : Nat) (bs : List Byte) :
    Memory.wf (Memory.writeRun m a bs) := by
  induction bs generalizing m a with
  | nil => exact h
  | cons b bs ih => exact ih (Memory.set_wf h a b) (a + 1)

theorem Memory.writeRun_within {n : Nat} {m : Memory} (h : Memory.within n m) {a : Nat}
    {bs : List Byte} (ha : a + bs.length ≤ n) : Memory.within n (Memory.writeRun m a bs) := by
  induction bs generalizing m a with
  | nil => exact h
  | cons b bs ih =>
    simp only [List.length_cons] at ha
    exact ih (Memory.set_within h (by omega) b) (by omega)

/-- Outside the written run every byte is as before. -/
theorem Memory.get_writeRun_of_outside {m : Memory} (h : Memory.wf m) {a : Nat} {bs : List Byte}
    {x : Nat} (hx : x < a ∨ a + bs.length ≤ x) :
    Memory.get (Memory.writeRun m a bs) x = Memory.get m x := by
  induction bs generalizing m a with
  | nil => rfl
  | cons b bs ih =>
    simp only [List.length_cons] at hx
    rw [Memory.writeRun, ih (Memory.set_wf h a b) (by omega), Memory.get_set h, if_neg (by omega)]

/-- Inside the written run the byte is the one written there. -/
theorem Memory.get_writeRun_of_inside {m : Memory} (h : Memory.wf m) {a : Nat} {bs : List Byte}
    {j : Nat} (hj : j < bs.length) : Memory.get (Memory.writeRun m a bs) (a + j) = bs[j] := by
  induction bs generalizing m a j with
  | nil => simp at hj
  | cons b bs ih =>
    rw [Memory.writeRun]
    cases j with
    | zero =>
      rw [Memory.get_writeRun_of_outside (Memory.set_wf h a b) (by omega), Memory.get_set h]
      simp
    | succ j =>
      have := ih (Memory.set_wf h a b) (a := a + 1) (j := j) (by simpa using hj)
      rw [show a + (j + 1) = a + 1 + j by omega, this]
      simp

@[simp] theorem Memory.readRun_length (m : Memory) (a n : Nat) : (Memory.readRun m a n).length = n := by
  induction n generalizing a with
  | zero => rfl
  | succ n ih => simp [Memory.readRun, ih]

theorem Memory.readRun_getElem (m : Memory) (a n j : Nat) (h : j < (Memory.readRun m a n).length) :
    (Memory.readRun m a n)[j] = Memory.get m (a + j) := by
  induction n generalizing a j with
  | zero => simp at h
  | succ n ih =>
    cases j with
    | zero => simp [Memory.readRun]
    | succ j =>
      have hj : j < (Memory.readRun m (a + 1) n).length := by simpa using h
      have := ih (a + 1) j hj
      simp only [Memory.readRun, List.getElem_cons_succ, this]
      congr 1; omega

/-- A run splits where its length does. -/
theorem Memory.readRun_add (m : Memory) (a n k : Nat) :
    Memory.readRun m a (n + k) = Memory.readRun m a n ++ Memory.readRun m (a + n) k := by
  induction n generalizing a with
  | zero => simp [Memory.readRun]
  | succ n ih =>
    rw [show n + 1 + k = n + k + 1 by omega, Memory.readRun, Memory.readRun, ih]
    simp [show a + 1 + n = a + (n + 1) by omega]

/-- Reading back a written run. -/
theorem Memory.readRun_writeRun {m : Memory} (h : Memory.wf m) (a : Nat) (bs : List Byte) :
    Memory.readRun (Memory.writeRun m a bs) a bs.length = bs := by
  refine List.ext_getElem (by simp) fun j h₁ h₂ => ?_
  rw [Memory.readRun_getElem, Memory.get_writeRun_of_inside h h₂]

theorem State.reset_tape_wf : Memory.wf State.reset.tape := Memory.wf_nil

end Sys2Proof.Machine
end

