-- ==== Sys2Proof/Laws/State.lean ====
section
/-! SUPPORT. One lemma per field per update of State, so that no later proof unfolds a record update. -/

namespace Sys2Proof.Machine

variable (s : State)

@[simp] theorem State.setTape_config (v : Memory) : (s.setTape v).config = s.config := rfl
@[simp] theorem State.setTape_tape (v : Memory) : (s.setTape v).tape = v := rfl
@[simp] theorem State.setTape_ip (v : Memory) : (s.setTape v).ip = s.ip := rfl
@[simp] theorem State.setTape_stack (v : Memory) : (s.setTape v).stack = s.stack := rfl
@[simp] theorem State.setTape_flags (v : Memory) : (s.setTape v).flags = s.flags := rfl
@[simp] theorem State.setTape_status (v : Memory) : (s.setTape v).status = s.status := rfl
@[simp] theorem State.setTape_numberInput (v : Memory) : (s.setTape v).numberInput = s.numberInput := rfl
@[simp] theorem State.setTape_textInput (v : Memory) : (s.setTape v).textInput = s.textInput := rfl
@[simp] theorem State.setTape_output (v : Memory) : (s.setTape v).output = s.output := rfl

@[simp] theorem State.setIp_config (v : Nat) : (s.setIp v).config = s.config := rfl
@[simp] theorem State.setIp_tape (v : Nat) : (s.setIp v).tape = s.tape := rfl
@[simp] theorem State.setIp_ip (v : Nat) : (s.setIp v).ip = v := rfl
@[simp] theorem State.setIp_stack (v : Nat) : (s.setIp v).stack = s.stack := rfl
@[simp] theorem State.setIp_flags (v : Nat) : (s.setIp v).flags = s.flags := rfl
@[simp] theorem State.setIp_status (v : Nat) : (s.setIp v).status = s.status := rfl
@[simp] theorem State.setIp_numberInput (v : Nat) : (s.setIp v).numberInput = s.numberInput := rfl
@[simp] theorem State.setIp_textInput (v : Nat) : (s.setIp v).textInput = s.textInput := rfl
@[simp] theorem State.setIp_output (v : Nat) : (s.setIp v).output = s.output := rfl

@[simp] theorem State.setStack_config (v : List Word) : (s.setStack v).config = s.config := rfl
@[simp] theorem State.setStack_tape (v : List Word) : (s.setStack v).tape = s.tape := rfl
@[simp] theorem State.setStack_ip (v : List Word) : (s.setStack v).ip = s.ip := rfl
@[simp] theorem State.setStack_stack (v : List Word) : (s.setStack v).stack = v := rfl
@[simp] theorem State.setStack_flags (v : List Word) : (s.setStack v).flags = s.flags := rfl
@[simp] theorem State.setStack_status (v : List Word) : (s.setStack v).status = s.status := rfl
@[simp] theorem State.setStack_numberInput (v : List Word) : (s.setStack v).numberInput = s.numberInput := rfl
@[simp] theorem State.setStack_textInput (v : List Word) : (s.setStack v).textInput = s.textInput := rfl
@[simp] theorem State.setStack_output (v : List Word) : (s.setStack v).output = s.output := rfl

@[simp] theorem State.setFlags_config (v : Flags) : (s.setFlags v).config = s.config := rfl
@[simp] theorem State.setFlags_tape (v : Flags) : (s.setFlags v).tape = s.tape := rfl
@[simp] theorem State.setFlags_ip (v : Flags) : (s.setFlags v).ip = s.ip := rfl
@[simp] theorem State.setFlags_stack (v : Flags) : (s.setFlags v).stack = s.stack := rfl
@[simp] theorem State.setFlags_flags (v : Flags) : (s.setFlags v).flags = v := rfl
@[simp] theorem State.setFlags_status (v : Flags) : (s.setFlags v).status = s.status := rfl
@[simp] theorem State.setFlags_numberInput (v : Flags) : (s.setFlags v).numberInput = s.numberInput := rfl
@[simp] theorem State.setFlags_textInput (v : Flags) : (s.setFlags v).textInput = s.textInput := rfl
@[simp] theorem State.setFlags_output (v : Flags) : (s.setFlags v).output = s.output := rfl

@[simp] theorem State.setStatus_config (v : Status) : (s.setStatus v).config = s.config := rfl
@[simp] theorem State.setStatus_tape (v : Status) : (s.setStatus v).tape = s.tape := rfl
@[simp] theorem State.setStatus_ip (v : Status) : (s.setStatus v).ip = s.ip := rfl
@[simp] theorem State.setStatus_stack (v : Status) : (s.setStatus v).stack = s.stack := rfl
@[simp] theorem State.setStatus_flags (v : Status) : (s.setStatus v).flags = s.flags := rfl
@[simp] theorem State.setStatus_status (v : Status) : (s.setStatus v).status = v := rfl
@[simp] theorem State.setStatus_numberInput (v : Status) : (s.setStatus v).numberInput = s.numberInput := rfl
@[simp] theorem State.setStatus_textInput (v : Status) : (s.setStatus v).textInput = s.textInput := rfl
@[simp] theorem State.setStatus_output (v : Status) : (s.setStatus v).output = s.output := rfl

@[simp] theorem State.setNumberInput_config (v : List NumberAnswer) : (s.setNumberInput v).config = s.config := rfl
@[simp] theorem State.setNumberInput_tape (v : List NumberAnswer) : (s.setNumberInput v).tape = s.tape := rfl
@[simp] theorem State.setNumberInput_ip (v : List NumberAnswer) : (s.setNumberInput v).ip = s.ip := rfl
@[simp] theorem State.setNumberInput_stack (v : List NumberAnswer) : (s.setNumberInput v).stack = s.stack := rfl
@[simp] theorem State.setNumberInput_flags (v : List NumberAnswer) : (s.setNumberInput v).flags = s.flags := rfl
@[simp] theorem State.setNumberInput_status (v : List NumberAnswer) : (s.setNumberInput v).status = s.status := rfl
@[simp] theorem State.setNumberInput_numberInput (v : List NumberAnswer) : (s.setNumberInput v).numberInput = v := rfl
@[simp] theorem State.setNumberInput_textInput (v : List NumberAnswer) : (s.setNumberInput v).textInput = s.textInput := rfl
@[simp] theorem State.setNumberInput_output (v : List NumberAnswer) : (s.setNumberInput v).output = s.output := rfl

@[simp] theorem State.setTextInput_config (v : List (List Byte)) : (s.setTextInput v).config = s.config := rfl
@[simp] theorem State.setTextInput_tape (v : List (List Byte)) : (s.setTextInput v).tape = s.tape := rfl
@[simp] theorem State.setTextInput_ip (v : List (List Byte)) : (s.setTextInput v).ip = s.ip := rfl
@[simp] theorem State.setTextInput_stack (v : List (List Byte)) : (s.setTextInput v).stack = s.stack := rfl
@[simp] theorem State.setTextInput_flags (v : List (List Byte)) : (s.setTextInput v).flags = s.flags := rfl
@[simp] theorem State.setTextInput_status (v : List (List Byte)) : (s.setTextInput v).status = s.status := rfl
@[simp] theorem State.setTextInput_numberInput (v : List (List Byte)) : (s.setTextInput v).numberInput = s.numberInput := rfl
@[simp] theorem State.setTextInput_textInput (v : List (List Byte)) : (s.setTextInput v).textInput = v := rfl
@[simp] theorem State.setTextInput_output (v : List (List Byte)) : (s.setTextInput v).output = s.output := rfl

@[simp] theorem State.setOutput_config (v : List Emission) : (s.setOutput v).config = s.config := rfl
@[simp] theorem State.setOutput_tape (v : List Emission) : (s.setOutput v).tape = s.tape := rfl
@[simp] theorem State.setOutput_ip (v : List Emission) : (s.setOutput v).ip = s.ip := rfl
@[simp] theorem State.setOutput_stack (v : List Emission) : (s.setOutput v).stack = s.stack := rfl
@[simp] theorem State.setOutput_flags (v : List Emission) : (s.setOutput v).flags = s.flags := rfl
@[simp] theorem State.setOutput_status (v : List Emission) : (s.setOutput v).status = s.status := rfl
@[simp] theorem State.setOutput_numberInput (v : List Emission) : (s.setOutput v).numberInput = s.numberInput := rfl
@[simp] theorem State.setOutput_textInput (v : List Emission) : (s.setOutput v).textInput = s.textInput := rfl
@[simp] theorem State.setOutput_output (v : List Emission) : (s.setOutput v).output = v := rfl

@[simp] theorem State.advance_config (f : Format) : (s.advance f).config = s.config := rfl
@[simp] theorem State.advance_tape (f : Format) : (s.advance f).tape = s.tape := rfl
@[simp] theorem State.advance_ip (f : Format) : (s.advance f).ip = s.ip + f.length := rfl
@[simp] theorem State.advance_stack (f : Format) : (s.advance f).stack = s.stack := rfl
@[simp] theorem State.advance_flags (f : Format) : (s.advance f).flags = s.flags := rfl
@[simp] theorem State.advance_status (f : Format) : (s.advance f).status = s.status := rfl
@[simp] theorem State.advance_numberInput (f : Format) : (s.advance f).numberInput = s.numberInput := rfl
@[simp] theorem State.advance_textInput (f : Format) : (s.advance f).textInput = s.textInput := rfl
@[simp] theorem State.advance_output (f : Format) : (s.advance f).output = s.output := rfl

@[simp] theorem State.emit_config (e : Emission) : (s.emit e).config = s.config := rfl
@[simp] theorem State.emit_tape (e : Emission) : (s.emit e).tape = s.tape := rfl
@[simp] theorem State.emit_ip (e : Emission) : (s.emit e).ip = s.ip := rfl
@[simp] theorem State.emit_stack (e : Emission) : (s.emit e).stack = s.stack := rfl
@[simp] theorem State.emit_flags (e : Emission) : (s.emit e).flags = s.flags := rfl
@[simp] theorem State.emit_status (e : Emission) : (s.emit e).status = s.status := rfl
@[simp] theorem State.emit_numberInput (e : Emission) : (s.emit e).numberInput = s.numberInput := rfl
@[simp] theorem State.emit_textInput (e : Emission) : (s.emit e).textInput = s.textInput := rfl
@[simp] theorem State.emit_output (e : Emission) : (s.emit e).output = s.output ++ [e] := rfl

@[simp] theorem format_length_n : Format.n.length = 1 := rfl
@[simp] theorem format_length_i : Format.i.length = 5 := rfl

end Sys2Proof.Machine
end

