-- ==== Sys2Proof/Laws/Ops.lean ====
section
/-! SUPPORT. One lemma per shared operation that says everything it can do: cite these, do not unfold
the operation. -/

namespace Sys2Proof.Machine

variable {s t : State}

/-! ### Ends of an instruction -/

theorem raise_next {k : FaultKind} (h : raise k s = .next t) : t = s.setStatus (.faulted k) := by
  simpa [raise] using h.symm

theorem hold_next (h : hold s = .next t) : t = s := by simpa [hold] using h.symm

/-! ### Operand checks -/

/-- `Need(1)`: underflow on an empty stack, the body on the top and the rest otherwise. -/
theorem needOne_next {body : Word → List Word → StepResult} (h : needOne s body = .next t) :
    (s.stack = [] ∧ t = s.setStatus (.faulted .stackUnderflowError)) ∨
      ∃ x rest, s.stack = x :: rest ∧ body x rest = .next t := by
  unfold needOne at h
  split at h
  · next x rest hs => exact .inr ⟨x, rest, hs, h⟩
  · next hs => exact .inl ⟨hs, raise_next h⟩

theorem needOne_of_cons {body : Word → List Word → StepResult} {x : Word} {rest : List Word}
    (h : s.stack = x :: rest) : needOne s body = body x rest := by simp [needOne, h]

theorem needOne_of_nil {body : Word → List Word → StepResult} (h : s.stack = []) :
    needOne s body = raise .stackUnderflowError s := by simp [needOne, h]

/-- `Need(2)`: underflow below two words, the body on the two top words and the rest otherwise. -/
theorem needTwo_next {body : Word → Word → List Word → StepResult} (h : needTwo s body = .next t) :
    (s.stack.length < 2 ∧ t = s.setStatus (.faulted .stackUnderflowError)) ∨
      ∃ x y rest, s.stack = x :: y :: rest ∧ body x y rest = .next t := by
  unfold needTwo at h
  split at h
  · next x y rest hs => exact .inr ⟨x, y, rest, hs, h⟩
  · next hs => exact .inl ⟨by simp [hs], raise_next h⟩
  · next hs => exact .inl ⟨by simp [hs], raise_next h⟩

theorem needTwo_of_cons {body : Word → Word → List Word → StepResult} {x y : Word}
    {rest : List Word} (h : s.stack = x :: y :: rest) : needTwo s body = body x y rest := by
  simp [needTwo, h]

theorem needTwo_of_short {body : Word → Word → List Word → StepResult} (h : s.stack.length < 2) :
    needTwo s body = raise .stackUnderflowError s := by
  unfold needTwo
  split
  · next hs => simp [hs] at h
  · rfl
  · rfl

/-- `Room(1)`: overflow on a full stack, the body otherwise. -/
theorem room_next {body : StepResult} (h : room s body = .next t) :
    (¬ s.HasRoom ∧ t = s.setStatus (.faulted .stackOverflowError)) ∨ (s.HasRoom ∧ body = .next t) := by
  unfold room at h
  split at h
  · next hr => exact .inr ⟨hr, h⟩
  · next hr => exact .inl ⟨hr, raise_next h⟩

theorem room_of_hasRoom {body : StepResult} (h : s.HasRoom) : room s body = body := if_pos h

theorem room_of_full {body : StepResult} (h : ¬ s.HasRoom) :
    room s body = raise .stackOverflowError s := if_neg h

/-! ### Checked access to the tape -/

theorem memRead_eq_some {a : Int} {n : Nat} {bs : List Byte} :
    s.memRead a n = some bs ↔ s.InBounds a n ∧ bs = Memory.readRun s.tape a.toNat n := by
  unfold State.memRead
  split
  · next h => exact ⟨fun e => ⟨h, (Option.some.inj e).symm⟩, fun e => congrArg some e.2.symm⟩
  · next h => simp [h]

theorem memRead_eq_none {a : Int} {n : Nat} : s.memRead a n = none ↔ ¬ s.InBounds a n := by
  unfold State.memRead
  split
  · next h => simp [h]
  · next h => simp [h]

theorem memWrite_eq_some {a : Int} {bs : List Byte} {m : Memory} :
    s.memWrite a bs = some m ↔ s.InBounds a bs.length ∧ m = Memory.writeRun s.tape a.toNat bs := by
  unfold State.memWrite
  split
  · next h => exact ⟨fun e => ⟨h, (Option.some.inj e).symm⟩, fun e => congrArg some e.2.symm⟩
  · next h => simp [h]

theorem memWrite_eq_none {a : Int} {bs : List Byte} :
    s.memWrite a bs = none ↔ ¬ s.InBounds a bs.length := by
  unfold State.memWrite
  split
  · next h => simp [h]
  · next h => simp [h]

@[simp] theorem encodeWord_length (v : Word) : (encodeWord v).length = 4 := rfl

theorem writeWord_eq_some {a : Int} {v : Word} {m : Memory} :
    s.writeWord a v = some m ↔ s.InBounds a 4 ∧ m = Memory.writeRun s.tape a.toNat (encodeWord v) := by
  unfold State.writeWord
  rw [memWrite_eq_some, encodeWord_length]

theorem writeWord_eq_none {a : Int} {v : Word} : s.writeWord a v = none ↔ ¬ s.InBounds a 4 := by
  unfold State.writeWord
  rw [memWrite_eq_none, encodeWord_length]

theorem readWord_of_inBounds {a : Int} (h : s.InBounds a 4) :
    s.readWord a = some (decodeWord (Memory.get s.tape a.toNat) (Memory.get s.tape (a.toNat + 1))
      (Memory.get s.tape (a.toNat + 2)) (Memory.get s.tape (a.toNat + 3))) := by
  rw [State.readWord, memRead_eq_some.2 ⟨h, rfl⟩]
  simp [Memory.readRun, decodeBytes, Nat.add_assoc]

theorem readWord_eq_none {a : Int} : s.readWord a = none ↔ ¬ s.InBounds a 4 := by
  constructor
  · intro h hb
    rw [readWord_of_inBounds hb] at h
    exact nomatch h
  · intro h
    rw [State.readWord, memRead_eq_none.2 h]
    rfl

theorem target_eq_some {w : Word} {a : Nat} :
    s.target w = some a ↔ w.toInt = (a : Int) ∧ a < s.config.tapeCapacity := by
  unfold State.target
  split
  · next h => simp only [Option.some.injEq]; omega
  · next h => simp only [reduceCtorEq, false_iff]; omega

theorem target_eq_none {w : Word} :
    s.target w = none ↔ w.toInt < 0 ∨ (s.config.tapeCapacity : Int) ≤ w.toInt := by
  unfold State.target
  split
  · next h => simp only [reduceCtorEq, false_iff]; omega
  · next h => simp only [true_iff]; omega

/-! ### Shared behaviors -/

theorem pushImmediate_next {imm : Word} (h : pushImmediate imm s = .next t) :
    (¬ s.HasRoom ∧ t = s.setStatus (.faulted .stackOverflowError)) ∨
      (s.HasRoom ∧ t = (s.setStack (imm :: s.stack)).advance .i) := by
  rcases room_next h with h | ⟨hr, h⟩
  · exact .inl h
  · exact .inr ⟨hr, by simpa using h.symm⟩

/-- `Arith(op)`: underflow, a zero divisor of DIV or MOD, or the result in place of both operands. -/
theorem arith_next {op : ArithOp} (h : arith op s = .next t) :
    (s.stack.length < 2 ∧ t = s.setStatus (.faulted .stackUnderflowError)) ∨
    ∃ b a rest, s.stack = b :: a :: rest ∧
      ((op.divides = true ∧ b.toInt = 0 ∧ t = s.setStatus (.faulted .arithmeticError)) ∨
       (¬ (op.divides = true ∧ b.toInt = 0) ∧ t = (s.setStack (op.apply a b :: rest)).advance .n)) := by
  rcases needTwo_next h with h | ⟨b, a, rest, hs, h⟩
  · exact .inl h
  · refine .inr ⟨b, a, rest, hs, ?_⟩
    split at h
    · next hz => exact .inl ⟨hz.1, hz.2, raise_next h⟩
    · next hz => exact .inr ⟨hz, by simpa using h.symm⟩

/-- `Jump(cond)`: not taken, taken to a legal target, or taken to none. -/
theorem jump_next {k : Mnemonic} {imm : Word} (h : jump k imm s = .next t) :
    (s.flags.condition k = false ∧ t = s.advance .i) ∨
    (s.flags.condition k = true ∧ s.target imm = none ∧ t = s.setStatus (.faulted .boundsError)) ∨
    ∃ a, s.flags.condition k = true ∧ s.target imm = some a ∧ t = s.setIp a := by
  unfold jump at h
  split at h
  · next hc =>
    split at h
    · next ht => exact .inr (.inl ⟨hc, ht, raise_next h⟩)
    · next a ht => exact .inr (.inr ⟨a, hc, ht, by simpa using h.symm⟩)
  · next hc => exact .inl ⟨by simpa using hc, by simpa using h.symm⟩

/-! ### Fetch and step -/

@[simp] theorem window_length : s.window.length = min 5 (s.config.tapeCapacity - s.ip) := by
  simp [State.window]

theorem fetch_endOfTape : fetch s = .endOfTape ↔ s.ip = s.config.tapeCapacity := by
  unfold fetch
  split
  · next h => simp [h]
  · next h =>
    split
    · simp [h]
    · split <;> simp [h]

theorem fetch_instr {i : Instr} :
    fetch s = .instr i ↔
      s.ip < s.config.tapeCapacity ∧ ∃ rest, decode s.config.opcodeMap s.window = .instr i rest := by
  unfold fetch
  split
  · next h => simp [h]
  · next h =>
    split
    · next h' => simp only [reduceCtorEq, false_iff]; omega
    · next h' =>
      have hlt : s.ip < s.config.tapeCapacity := by omega
      split <;> simp_all

/-- A step exists only in `Running`; it ends the tape, takes the fetch's fault, or runs the fetched
instruction. -/
theorem step_next (h : step s = .next t) :
    s.status = .running ∧
      ((fetch s = .endOfTape ∧ t = s.setStatus (.halted .endOfTape)) ∨
       (∃ k, fetch s = .raises k ∧ t = s.setStatus (.faulted k)) ∨
       ∃ i, fetch s = .instr i ∧ exec i s = .next t) := by
  unfold step at h
  split at h
  · exact nomatch h
  · exact nomatch h
  · next hr =>
    refine ⟨hr, ?_⟩
    split at h
    · next hf => exact .inl ⟨hf, by simpa using h.symm⟩
    · next k hf => exact .inr (.inl ⟨k, hf, raise_next h⟩)
    · next i hf => exact .inr (.inr ⟨i, hf, h⟩)

theorem step_of_instr {i : Instr} (hr : s.status = .running) (hf : fetch s = .instr i) :
    step s = exec i s := by simp [step, hr, hf]

/-! ### Runs -/

/-- A run of one more step, where the first step answers a next state. -/
theorem run_succ_of_next (M : Host.Core) {n : Nat} {u v : M.State} (h : M.step u = .next v) :
    M.run (n + 1) u = M.run n v := by
  unfold Host.Core.run
  rw [h]
  cases n <;> rfl

/-! ### Induction over runs, packaged once -/

/-- What holds after every load and is kept by every move holds of every reachable state. -/
theorem Reachable.rec_on_moves {P : State → Prop}
    (hload : ∀ (c : Config) (image : List Byte) (s : State), c.wf →
      Sys2Proof.Machine.load c image = .loaded s → P s)
    (hmove : ∀ s t : State, P s → Move s t → P t) (hs : Reachable s) : P s := by
  induction hs with
  | load c image s hc h => exact hload c image s hc h
  | move s t _ h ih => exact hmove s t ih h

end Sys2Proof.Machine
end

