-- ==== Sys2Proof/Laws/PerInstr.lean ====
section
/-! SUPPORT. Statements about every instruction as syntax, one lemma per constructor. -/

namespace Sys2Proof.Laws.EncodingLength

/-- The encoder writes as many bytes as the table of R84 gives the instruction (spec/30_encoding.md
R80, R84). -/
def Statement (i : Instr) : Prop := ∀ m : OpcodeMap, (encode m i).length = i.length

theorem nop : Statement .nop := fun _ => rfl
theorem push (imm : Word) : Statement (.push imm) := fun _ => rfl
theorem pop : Statement .pop := fun _ => rfl
theorem const (imm : Word) : Statement (.const imm) := fun _ => rfl
theorem load : Statement .load := fun _ => rfl
theorem store : Statement .store := fun _ => rfl
theorem add : Statement .add := fun _ => rfl
theorem sub : Statement .sub := fun _ => rfl
theorem mul : Statement .mul := fun _ => rfl
theorem div : Statement .div := fun _ => rfl
theorem mod : Statement .mod := fun _ => rfl
theorem call : Statement .call := fun _ => rfl
theorem ret : Statement .ret := fun _ => rfl
theorem dup : Statement .dup := fun _ => rfl
theorem swap : Statement .swap := fun _ => rfl
theorem cmp : Statement .cmp := fun _ => rfl
theorem test : Statement .test := fun _ => rfl
theorem jmp (imm : Word) : Statement (.jmp imm) := fun _ => rfl
theorem jz (imm : Word) : Statement (.jz imm) := fun _ => rfl
theorem jnz (imm : Word) : Statement (.jnz imm) := fun _ => rfl
theorem jbz (imm : Word) : Statement (.jbz imm) := fun _ => rfl
theorem jaz (imm : Word) : Statement (.jaz imm) := fun _ => rfl
theorem jl (imm : Word) : Statement (.jl imm) := fun _ => rfl
theorem jle (imm : Word) : Statement (.jle imm) := fun _ => rfl
theorem je (imm : Word) : Statement (.je imm) := fun _ => rfl
theorem jne (imm : Word) : Statement (.jne imm) := fun _ => rfl
theorem ja (imm : Word) : Statement (.ja imm) := fun _ => rfl
theorem jae (imm : Word) : Statement (.jae imm) := fun _ => rfl
theorem printInt : Statement .printInt := fun _ => rfl
theorem printString : Statement .printString := fun _ => rfl
theorem readInt : Statement .readInt := fun _ => rfl
theorem readString : Statement .readString := fun _ => rfl
theorem halt : Statement .halt := fun _ => rfl

end Sys2Proof.Laws.EncodingLength
end

