-- ==== Sys2Proof/Tests/Slice0.lean ====
section
/-! SUPPORT. The model's own tests. Expected results come from spec/95_test_vectors.md (V<n> names the
vector) or, for a decoding, from the encodings of spec/30_encoding.md R81, R82, R84 written out by hand;
then, for every statement with hypotheses, a state and operands that meet them. -/

namespace Sys2Proof.Tests

open Sys2Proof.Machine

/-- The default machine with `code` at address 0 and the given stack, top first. -/
def machine (code : List Byte) (stack : List Word) : State :=
  { State.reset with tape := Memory.writeRun [] 0 code, stack := stack }

/-- The same with a tape of `c` bytes and a stack of at most `n` words. -/
def smallMachine (c : Nat) (n : Option Nat) (code : List Byte) (stack : List Word) : State :=
  { machine code stack with config := ⟨c, n, defaultOpcodeMap⟩ }

/-- The next state of an outcome, if it is one. -/
def nextOf : StepResult → Option State
  | .next s => some s
  | .fault _ => none
  | .refused _ => none

/-- The stack, IP and status after one step. -/
def after (s : State) : Option (List Word × Nat × Status) :=
  (nextOf (step s)).map fun t => (t.stack, t.ip, t.status)

/-- The flags after one step. -/
def flagsAfter (s : State) : Option Flags := (nextOf (step s)).map State.flags

/-! ### WellFormed: an ill-formed term for each check -/

/-- R5: a tape of `2^31` bytes is not admitted. -/
theorem test_wf_refuses_capacity : ¬ ({ Config.default with tapeCapacity := 2 ^ 31 } : Config).wf := by decide

/-- R8, C3: CONST with the byte of NOP is no opcode map. -/
theorem test_wf_refuses_shared_opcode :
    ¬ ({ defaultOpcodeMap with const := 0x00 } : OpcodeMap).wf := by decide

/-- R231: an image of five bytes does not fit a tape of four. -/
theorem test_wf_refuses_long_image :
    ¬ imageFits { Config.default with tapeCapacity := 4 } [1, 1, 0, 0, 0] := by decide

theorem test_wf_accepts_default : Config.default.wf := by decide

/-! ### Decoding, one word for every constructor -/

theorem test_decode_basic :
    decodeTableWord 8 0x00 = some .nop ∧ decodeTableWord 40 0x8000000001 = some (.push (-2147483648)) ∧
    decodeTableWord 8 0x02 = some .pop ∧ decodeTableWord 40 0x7FFFFFFF03 = some (.const 2147483647) := by
  decide

theorem test_decode_memory : decodeTableWord 8 0x04 = some .load ∧ decodeTableWord 8 0x05 = some .store := by
  decide

theorem test_decode_arithmetic :
    decodeTableWord 8 0x06 = some .add ∧ decodeTableWord 8 0x07 = some .sub ∧
    decodeTableWord 8 0x08 = some .mul ∧ decodeTableWord 8 0x09 = some .div ∧
    decodeTableWord 8 0x0A = some .mod := by decide

theorem test_decode_call_return : decodeTableWord 8 0x0B = some .call ∧ decodeTableWord 8 0x0C = some .ret := by
  decide

theorem test_decode_stack : decodeTableWord 8 0x0D = some .dup ∧ decodeTableWord 8 0x0E = some .swap := by
  decide

theorem test_decode_compare : decodeTableWord 8 0x0F = some .cmp ∧ decodeTableWord 8 0x10 = some .test := by
  decide

theorem test_decode_jumps :
    decodeTableWord 40 0x0000400011 = some (.jmp 16384) ∧ decodeTableWord 40 0x0000002812 = some (.jz 40) ∧
    decodeTableWord 40 0x0000002813 = some (.jnz 40) ∧ decodeTableWord 40 0x0000002814 = some (.jbz 40) ∧
    decodeTableWord 40 0x0000002815 = some (.jaz 40) ∧ decodeTableWord 40 0x0000002816 = some (.jl 40) ∧
    decodeTableWord 40 0x0000002817 = some (.jle 40) ∧ decodeTableWord 40 0x0000001618 = some (.je 22) ∧
    decodeTableWord 40 0x0000002819 = some (.jne 40) ∧ decodeTableWord 40 0x000000281A = some (.ja 40) ∧
    decodeTableWord 40 0xFFFFFFFB1B = some (.jae (-5)) := by decide

theorem test_decode_io_halt :
    decodeTableWord 8 0x1C = some .printInt ∧ decodeTableWord 8 0x1D = some .printString ∧
    decodeTableWord 8 0x1E = some .readInt ∧ decodeTableWord 8 0x1F = some .readString ∧
    decodeTableWord 8 0x20 = some .halt := by decide

/-- An operand word the table gives no bits is zeros. -/
theorem test_decode_short_row : decodeTableWord 8 0x01 = some (.push 0) := by decide

theorem test_decode_rest : decode defaultOpcodeMap [0x06, 0x1C, 0x20] = .instr .add [0x1C, 0x20] := by decide

theorem test_decode_truncated : decode defaultOpcodeMap [0x11, 0x05, 0x00, 0x00] = .truncated := by decide

theorem test_decode_no_bytes : decode defaultOpcodeMap [] = .noBytes := by decide

/-! ### The word codec, V4, V6, V8 and the mixed width after V9 -/

theorem test_encode_words :
    encodeWord (-2) = [0xFE, 0xFF, 0xFF, 0xFF] ∧ encodeWord 305419896 = [0x78, 0x56, 0x34, 0x12] ∧
    encodeWord (-2147483648) = [0x00, 0x00, 0x00, 0x80] := by decide

theorem test_decode_mixed_width : (decodeWord 0x56 0x34 0x12 0xAB).toInt = -1424870314 := by decide

/-! ### Fetch and sequencer -/

/-- V10, last step: the fetch at `IP = C`. -/
theorem test_end_of_tape :
    after { smallMachine 8 none [] [1] with ip := 8 } = some ([1], 8, .halted .endOfTape) := by decide

/-- V11. -/
theorem test_unknown_opcode : after (machine [0x21] []) = some ([], 0, .faulted .unknownOpcodeError) := by decide

/-- V13: the immediate is not in the tape. -/
theorem test_truncated_immediate :
    after (smallMachine 4 none [1, 1, 0, 0] []) = some ([], 0, .faulted .boundsError) := by decide

/-- V14: a PUSH whose last byte is the tape's. -/
theorem test_last_immediate :
    after (smallMachine 5 none [1, 1, 0, 0, 0] []) = some ([1], 5, .running) := by decide

/-- V15: an empty tape. -/
theorem test_empty_tape : after (smallMachine 0 none [] []) = some ([], 0, .halted .endOfTape) := by decide

/-- R32: no step after a halt. -/
theorem test_no_step_after_halt :
    nextOf (step { State.reset with status := .halted .haltInstruction }) = none := by decide

/-- The word is fetched and run as the first instruction after reset. -/
theorem test_with_fetch_word : after (State.reset.withFetchWord 40 0x8000000001) = some ([-2147483648], 5, .running) := by
  decide

/-! ### Basic: V17 to V22 -/

theorem test_nop : after (machine [0x00] []) = some ([], 1, .running) := by decide
theorem test_push : after (machine [0x01, 0xFE, 0xFF, 0xFF, 0xFF] []) = some ([-2], 5, .running) := by decide
theorem test_push_overflow :
    after (smallMachine 16384 (some 1) [0x01, 0, 0, 0, 0x80] [3]) = some ([3], 0, .faulted .stackOverflowError) := by
  decide
theorem test_const : after (machine [0x03, 0x2A, 0, 0, 0] [1]) = some ([42, 1], 5, .running) := by decide
theorem test_pop : after (machine [0x02] [9, 5]) = some ([5], 1, .running) := by decide
theorem test_pop_underflow : after (machine [0x02] []) = some ([], 0, .faulted .stackUnderflowError) := by decide

/-! ### Memory access: V23 to V31 -/

theorem test_load :
    after { machine [0x04] [100] with tape := [(0, 0x04), (100, 0x2A)] } = some ([42], 1, .running) := by decide
theorem test_load_last_word :
    after (machine [0x04] [16380]) = some ([0], 1, .running) ∧
    after (machine [0x04] [16381]) = some ([16381], 0, .faulted .boundsError) := by decide
theorem test_store :
    (nextOf (step (machine [0x05] [-1, 200]))).map State.tape =
      some [(0, 0x05), (200, 0xFF), (201, 0xFF), (202, 0xFF), (203, 0xFF)] := by decide
theorem test_store_out_of_bounds :
    after (machine [0x05] [0, 2147483647]) = some ([0, 2147483647], 0, .faulted .boundsError) := by decide

/-! ### Arithmetic: V32 to V56 -/

theorem test_add_wraps : after (machine [0x06] [1, 2147483647]) = some ([-2147483648], 1, .running) := by decide
theorem test_sub_order :
    after (machine [0x07] [3, 10]) = some ([7], 1, .running) ∧
    after (machine [0x07] [1, -2147483648]) = some ([2147483647], 1, .running) := by decide
theorem test_mul_wraps : after (machine [0x08] [46341, 46341]) = some ([-2147479015], 1, .running) := by decide
theorem test_div_signs :
    after (machine [0x09] [2, -7]) = some ([-3], 1, .running) ∧
    after (machine [0x09] [-2, 7]) = some ([-3], 1, .running) ∧
    after (machine [0x09] [-1, -2147483648]) = some ([-2147483648], 1, .running) := by decide
theorem test_div_by_zero :
    after (machine [0x09] [0, 5]) = some ([0, 5], 0, .faulted .arithmeticError) ∧
    after (machine [0x09] [0]) = some ([0], 0, .faulted .stackUnderflowError) := by decide
theorem test_mod_signs :
    after (machine [0x0A] [2, -7]) = some ([-1], 1, .running) ∧
    after (machine [0x0A] [-2, 7]) = some ([1], 1, .running) ∧
    after (machine [0x0A] [2147483647, -2147483648]) = some ([-1], 1, .running) := by decide

/-! ### Call and return: V57 to V63 -/

theorem test_call :
    after { machine [] [40] with tape := [(10, 0x0B)], ip := 10 } = some ([11], 40, .running) := by decide
theorem test_call_out_of_bounds :
    after { machine [] [16384] with tape := [(10, 0x0B)], ip := 10 } =
      some ([16384], 10, .faulted .boundsError) := by decide
theorem test_ret : after (machine [0x0C] [11, 7]) = some ([7], 11, .running) := by decide
theorem test_ret_out_of_bounds :
    after (machine [0x0C] [16384]) = some ([16384], 0, .faulted .boundsError) := by decide

/-! ### Stack manipulation: V65 to V70 -/

theorem test_dup : after (machine [0x0D] [5]) = some ([5, 5], 1, .running) := by decide
theorem test_dup_overflow :
    after (smallMachine 16384 (some 1) [0x0D] [5]) = some ([5], 0, .faulted .stackOverflowError) ∧
    after (smallMachine 16384 (some 0) [0x0D] []) = some ([], 0, .faulted .stackUnderflowError) := by decide
theorem test_swap : after (machine [0x0E] [2, 1, 9]) = some ([1, 2, 9], 1, .running) := by decide
theorem test_swap_underflow :
    after (machine [0x0E] [1]) = some ([1], 0, .faulted .stackUnderflowError) := by decide

/-! ### Compare and test: V71 to V82 -/

/-- V75 and V72: the order is of the exact difference. -/
theorem test_cmp :
    flagsAfter (machine [0x0F] [-1, 2147483647]) =
      some { Flags.reset with notEqual := true, above := true } ∧
    flagsAfter (machine [0x0F] [3, 2]) =
      some { Flags.reset with notEqual := true, below := true } := by decide
/-- V81: the families are independent. -/
theorem test_cmp_keeps_sign_test :
    flagsAfter { machine [0x0F] [1, 1] with flags := { Flags.reset with notZero := true, aboveZero := true } } =
      some { Flags.reset with equal := true, notZero := true, aboveZero := true } := by decide
/-- V77 and V80. -/
theorem test_test :
    flagsAfter (machine [0x10] [0]) = some { Flags.reset with zero := true } ∧
    flagsAfter (machine [0x10] [-2147483648]) =
      some { Flags.reset with notZero := true, belowZero := true } := by decide

/-! ### Jumps: V83 to V99 -/

/-- The IP after a jump with opcode `op` to 40 under the given flags. -/
def jumpsTo (op : Byte) (f : Flags) : Option Nat :=
  (nextOf (step { machine [op, 40, 0, 0, 0] [] with flags := f })).map State.ip

/-- V83 and V84: under the reset flags JMP alone is taken. -/
theorem test_jumps_at_reset :
    jumpsTo 0x11 Flags.reset = some 40 ∧
    ([0x12, 0x13, 0x14, 0x15, 0x16, 0x17, 0x18, 0x19, 0x1A, 0x1B] : List Byte).map
      (fun op => jumpsTo op Flags.reset) = List.replicate 10 (some 5) := by decide
/-- V85 to V89. -/
theorem test_sign_test_jumps :
    jumpsTo 0x12 { Flags.reset with zero := true } = some 40 ∧
    jumpsTo 0x13 { Flags.reset with zero := true } = some 5 ∧
    jumpsTo 0x13 { Flags.reset with notZero := true } = some 40 ∧
    jumpsTo 0x14 { Flags.reset with belowZero := true } = some 40 ∧
    jumpsTo 0x15 { Flags.reset with aboveZero := true } = some 40 ∧
    jumpsTo 0x15 { Flags.reset with zero := true } = some 5 := by decide
/-- V90 to V97. -/
theorem test_relational_jumps :
    jumpsTo 0x16 { Flags.reset with below := true } = some 40 ∧
    jumpsTo 0x17 { Flags.reset with equal := true } = some 40 ∧
    jumpsTo 0x17 { Flags.reset with above := true } = some 5 ∧
    jumpsTo 0x18 { Flags.reset with notEqual := true } = some 5 ∧
    jumpsTo 0x19 { Flags.reset with notEqual := true } = some 40 ∧
    jumpsTo 0x1A { Flags.reset with above := true } = some 40 ∧
    jumpsTo 0x1B { Flags.reset with equal := true } = some 40 ∧
    jumpsTo 0x1B { Flags.reset with below := true } = some 5 := by decide
/-- V98 and V99: the target is checked only when the jump is taken. -/
theorem test_jump_target :
    after (machine [0x11, 0x00, 0x40, 0, 0] []) = some ([], 0, .faulted .boundsError) ∧
    after (machine [0x12, 0x00, 0x40, 0, 0] []) = some ([], 5, .running) := by decide

/-! ### Input and output: V102 to V117 -/

theorem test_print_int :
    (nextOf (step (machine [0x1C] [-7]))).map State.output = some [.number (-7)] := by decide
theorem test_print_string :
    (nextOf (step { machine [] [2, 300] with tape := [(0, 0x1D), (300, 0x48), (301, 0x69)] })).map
      State.output = some [.text [0x48, 0x69]] := by decide
/-- V105, V106 and V107. -/
theorem test_print_string_bounds :
    after (machine [0x1D] [0, 16384]) = some ([], 1, .running) ∧
    after (machine [0x1D] [2, 16383]) = some ([2, 16383], 0, .faulted .boundsError) ∧
    after (machine [0x1D] [-1, 300]) = some ([-1, 300], 0, .faulted .boundsError) := by decide
/-- V108 and V110: the answer of the fault is consumed. -/
theorem test_read_int :
    after { machine [0x1E] [] with numberInput := [.number (-5)] } = some ([-5], 1, .running) ∧
    (nextOf (step { machine [0x1E] [] with numberInput := [.number 2147483648, .malformed] })).map
      (fun t => (t.numberInput, t.status)) = some ([.malformed], .faulted .ioFormatError) := by decide
/-- V109 and V111. -/
theorem test_read_int_malformed_or_silent :
    after { machine [0x1E] [] with numberInput := [.malformed] } = some ([], 0, .faulted .ioFormatError) ∧
    nextOf (step (machine [0x1E] [])) = some (machine [0x1E] []) := by decide
/-- V113. -/
theorem test_read_string :
    (nextOf (step { machine [0x1F] [3, 500] with textInput := [[0x61, 0x62, 0x63]] })).map
      (fun t => (t.tape, t.stack)) =
        some ([(0, 0x1F), (500, 0x61), (501, 0x62), (502, 0x63)], [3]) := by decide
/-- V115, V116 and V117. -/
theorem test_read_string_misfits :
    after { machine [0x1F] [-1, 500] with textInput := [[]] } = some ([-1], 1, .running) ∧
    after { machine [0x1F] [8, 16383] with textInput := [[0x61, 0x62]] } =
      some ([8, 16383], 0, .faulted .boundsError) ∧
    after { machine [0x1F] [1, -9] with textInput := [[0x61, 0x62]] } = some ([-1], 1, .running) := by decide

/-! ### HALT: V118, V119 -/

theorem test_halt : after (machine [0x20] [2, 1]) = some ([2, 1], 1, .halted .haltInstruction) := by decide

/-! ### Witnesses: states and operands that meet the statements' hypotheses -/

theorem witness_DecodeOfEncode : defaultOpcodeMap.wf := by decide

theorem witness_DecodedBytes : decode defaultOpcodeMap [0x01, 1, 2, 3, 0x80, 9] = .instr (.push 0x80030201) [9] := by
  decide

/-- A byte no mnemonic has (the lowest, 0x21), one some mnemonic has (the highest, 0x20), and a PUSH
whose immediate is one byte too long and one whose immediate just fits. -/
theorem witness_IllegalOpcode :
    (machine [0x21] []).status = .running ∧ (machine [0x21] []).ip < (machine [0x21] []).config.tapeCapacity ∧
    (∀ k ∈ Mnemonic.all, defaultOpcodeMap.byteOf k ≠ Memory.get (machine [0x21] []).tape 0) ∧
    fetch (machine [0x20] []) = .instr .halt ∧
    Memory.get (machine [0x20] []).tape 0 = defaultOpcodeMap.byteOf .halt ∧ defaultOpcodeMap.wf ∧
    fetch (smallMachine 4 none [1, 7, 0, 0] []) = .raises .boundsError ∧
    fetch (smallMachine 5 none [1, 7, 0, 0, 0] []) = .instr (.push 7) := by decide

theorem witness_StepRunsTheDecoded :
    (machine [0x06] []).status = .running ∧ 0 < (machine [0x06] []).config.tapeCapacity ∧
    decode (machine [0x06] []).config.opcodeMap (machine [0x06] []).window = .instr .add [0, 0, 0, 0] := by decide

/-- A five-byte and a one-byte instruction at the very end of the tape. -/
theorem witness_StepRunsTheEncoded :
    (smallMachine 5 none [0x11, 4, 0, 0, 0] []).memRead 0 (Instr.jmp 4).length =
      some (encode defaultOpcodeMap (.jmp 4)) ∧
    (smallMachine 1 none [0x20] []).memRead 0 Instr.halt.length = some (encode defaultOpcodeMap .halt) ∧
    (smallMachine 5 none [0x11, 4, 0, 0, 0] []).config.opcodeMap.wf ∧
    (smallMachine 5 none [0x11, 4, 0, 0, 0] []).status = .running := by decide

/-- The three answers: at `C`, just above it, just below it; there a one-byte instruction, a byte
outside the map, and an opcode without its immediate. -/
theorem witness_OpcodeFetchAnswers :
    ({ smallMachine 8 none [] [] with ip := 8 } : State).ip = 8 ∧
    fetch { smallMachine 8 none [] [] with ip := 9 } = .raises .boundsError ∧
    fetch { smallMachine 8 none [] [] with ip := 7 } = .instr .nop ∧
    (smallMachine 8 none [] []).config.opcodeMap.wf ∧ Mnemonic.nop.format = .n ∧
    Memory.get (smallMachine 8 none [] []).tape 7 = defaultOpcodeMap.byteOf .nop ∧
    fetch (smallMachine 1 none [0x21] []) = .raises .unknownOpcodeError ∧
    fetch (smallMachine 1 none [0x01] []) = .raises .boundsError := by decide

/-- An immediate one byte too long for the tape, and one that just fits. -/
theorem witness_ImmediateFetch :
    Mnemonic.push.format = .i ∧ Memory.get (smallMachine 4 none [1, 1, 0, 0] []).tape 0 = defaultOpcodeMap.byteOf .push ∧
    (smallMachine 4 none [1, 1, 0, 0] []).config.tapeCapacity < 0 + 5 ∧
    0 + 5 ≤ (smallMachine 5 none [1, 1, 0, 0, 0] []).config.tapeCapacity ∧
    Memory.get (smallMachine 5 none [1, 1, 0, 0, 0] []).tape 0 = defaultOpcodeMap.byteOf .push ∧
    (smallMachine 5 none [1, 1, 0, 0, 0] []).config.opcodeMap.wf := by decide

/-- An untaken jump that falls to `C`, a READ with its answer there, and a completed step. -/
theorem witness_NextIp :
    fetch (smallMachine 5 none [0x12, 0, 0, 0, 0] []) = .instr (.jz 0) ∧
    (nextOf (step (smallMachine 5 none [0x12, 0, 0, 0, 0] []))).map (fun t => (t.ip, t.status)) =
      some (5, .running) ∧
    (smallMachine 5 none [0x12, 0, 0, 0, 0] []).flags.condition .jz = false ∧
    fetch { machine [0x1E] [] with numberInput := [.number 3] } = .instr .readInt ∧
    (nextOf (step { machine [0x1E] [] with numberInput := [.number 3] })).map State.status = some .running := by
  decide

/-- A one-byte instruction at the last byte, and a jump not taken in the last five. -/
theorem witness_CapacityReached :
    (nextOf (step (smallMachine 1 none [0x00] []))).map State.ip = some (smallMachine 1 none [0x00] []).config.tapeCapacity ∧
    (smallMachine 1 none [0x00] []).ip ≠ (smallMachine 1 none [0x00] []).config.tapeCapacity ∧
    (nextOf (step (smallMachine 5 none [0x12] []))).map State.ip = some 5 := by decide

theorem witness_EndedStatesAreFinal :
    ({ State.reset with status := .faulted .boundsError } : State).Ended ∧
    Moves { State.reset with status := .faulted .boundsError }
      (State.answerNumber { State.reset with status := .faulted .boundsError } .malformed) ∧
    (nextOf (step State.reset)).isSome := by
  exact ⟨by decide, .tail _ _ _ (.refl _) (.answerNumber _ _), by decide⟩

theorem witness_RunningAlwaysSteps : State.reset.status = .running := by decide

/-- Each of the four statuses after a step. -/
theorem witness_StatusAfterAStep :
    (nextOf (step (machine [0x00] []))).map State.status = some .running ∧
    (nextOf (step (machine [0x20] []))).map State.status = some (.halted .haltInstruction) ∧
    (nextOf (step (smallMachine 0 none [] []))).map State.status = some (.halted .endOfTape) ∧
    (nextOf (step (machine [0x02] []))).map State.status = some (.faulted .stackUnderflowError) := by decide

/-- An image that just fits, and one byte more. -/
theorem witness_Load :
    ([1, 2] : List Byte).length ≤ ({ Config.default with tapeCapacity := 2 } : Config).tapeCapacity ∧
    ({ Config.default with tapeCapacity := 2 } : Config).wf ∧
    (∃ s, load { Config.default with tapeCapacity := 2 } [1, 2] = .loaded s) ∧
    ({ Config.default with tapeCapacity := 2 } : Config).tapeCapacity < ([1, 2, 3] : List Byte).length := by
  exact ⟨by decide, by decide, ⟨_, rfl⟩, by decide⟩

/-- A state with bytes on its tape, a bounded stack and written flags that meets the invariant, and a
step from it. -/
theorem witness_EveryStepKeepsTheInvariant :
    ({ smallMachine 9 (some 2) [0x0F, 7] [1, 2] with
        flags := { Flags.reset with zero := true }, ip := 0 } : State).Inv ∧
    (nextOf (step { smallMachine 9 (some 2) [0x0F, 7] [1, 2] with
        flags := { Flags.reset with zero := true }, ip := 0 })).isSome := by decide

theorem witness_Reachable : Reachable State.reset :=
  .load Config.default [] State.reset (by decide) (by decide)

/-- A reachable state whose sign-test family is written: two steps from the load of PUSH 0; TEST. -/
theorem witness_ReachableFlags : ∃ s, Reachable s ∧ s.flags.zero = true := by
  refine ⟨_, .move _ _ (.move _ _ (.load Config.default [0x01, 0, 0, 0, 0, 0x10] _ (by decide) rfl)
    (.step _ _ rfl)) (.step _ _ rfl), by decide⟩

theorem witness_EqualTapes : Memory.wf [(3, 7), (9, 1)] := by decide

/-- A fault with no input, and the two that consume one. -/
theorem witness_FaultLeaves :
    (nextOf (step (machine [0x09] [0, 5]))).map State.status = some (.faulted .arithmeticError) ∧
    (nextOf (step { machine [0x1E] [] with numberInput := [.malformed] })).map State.status =
      some (.faulted .ioFormatError) ∧
    (nextOf (step { machine [0x1F] [8, 16383] with textInput := [[1, 2]] })).map State.status =
      some (.faulted .boundsError) := by decide

/-- One word short of two operands, and exactly two. -/
theorem witness_Underflow :
    (machine [] [1]).status = .running ∧ (machine [] [1]).stack.length < Instr.swap.mnemonic.pops ∧
    ¬ (machine [] [2, 1]).stack.length < Instr.swap.mnemonic.pops ∧
    (nextOf (exec .swap (machine [] [1]))).map State.status = some (.faulted .stackUnderflowError) := by decide

/-- A full stack of two, and a step from it that keeps it full. -/
theorem witness_Overflow :
    (smallMachine 8 (some 2) [] [1, 1]).config.stackCapacity = some 2 ∧
    (smallMachine 8 (some 2) [] [1, 1]).stack.length ≤ 2 ∧
    (nextOf (step (smallMachine 8 (some 2) [0x0E] [1, 1]))).isSome ∧
    Instr.dup.mnemonic.pops < Instr.dup.mnemonic.pushes ∧
    ¬ (smallMachine 8 (some 2) [] [1, 1]).HasRoom ∧ (smallMachine 8 (some 2) [] [1]).HasRoom := by decide

/-- Each kind an instruction raises. -/
theorem witness_FaultKinds :
    (nextOf (exec .load (machine [] [-1]))).map State.status = some (.faulted .boundsError) ∧
    (nextOf (exec (.jmp (-1)) (machine [] []))).map State.status = some (.faulted .boundsError) ∧
    (nextOf (exec .pop (machine [] []))).map State.status = some (.faulted .stackUnderflowError) ∧
    (nextOf (exec .mod (machine [] [0, 1]))).map State.status = some (.faulted .arithmeticError) ∧
    (nextOf (exec .readInt { machine [] [] with numberInput := [.malformed] })).map State.status =
      some (.faulted .ioFormatError) ∧
    (nextOf (exec (.push 1) (smallMachine 8 (some 0) [] []))).map State.status =
      some (.faulted .stackOverflowError) ∧ State.reset.status = .running := by decide

theorem witness_NopAndPop : (machine [] [9]).stack = 9 :: [] ∧ (machine [] []).stack = [] := by decide

/-- Room for one more word, no room, and PUSH and CONST with their immediate one byte too long. -/
theorem witness_PushAndConst :
    (smallMachine 8 (some 2) [] [1]).HasRoom ∧ ¬ (smallMachine 8 (some 1) [] [1]).HasRoom ∧
    (smallMachine 4 none [0x01] []).config.opcodeMap.wf ∧ (smallMachine 4 none [0x01] []).status = .running ∧
    0 < (smallMachine 4 none [0x01] []).config.tapeCapacity ∧
    Memory.get (smallMachine 4 none [0x01] []).tape 0 = defaultOpcodeMap.push ∧
    Memory.get (smallMachine 4 none [0x03] []).tape 0 = defaultOpcodeMap.const ∧
    (smallMachine 4 none [0x01] []).config.tapeCapacity < 0 + 5 := by decide

theorem witness_PushThenPop : State.reset.HasRoom := by decide

theorem witness_ZeroTape :
    State.reset.config.opcodeMap.nop = 0 ∧ State.reset.status = .running ∧ State.reset.tape = [] ∧
    State.reset.ip ≤ State.reset.config.tapeCapacity := by decide

/-- The lowest and highest address in bounds, and the ones just outside. -/
theorem witness_LoadResult :
    (machine [] [0]).stack = (0 : Word) :: [] ∧ 0 ≤ (0 : Word).toInt ∧
    (16380 : Word).toInt + 4 ≤ (machine [] [16380]).config.tapeCapacity ∧
    ((-1 : Word).toInt < 0 ∨ (16384 : Int) < (-1 : Word).toInt + 4) ∧
    ((16381 : Word).toInt < 0 ∨ ((machine [] [16381]).config.tapeCapacity : Int) < (16381 : Word).toInt + 4) ∧
    (machine [] []).stack = [] := by decide

/-- The same for STORE, on a tape in canonical form. -/
theorem witness_StoreResult :
    Memory.wf (machine [7] [5, 16380]).tape ∧ (machine [7] [5, 16380]).stack = 5 :: 16380 :: [] ∧
    0 ≤ (16380 : Word).toInt ∧ (16380 : Word).toInt + 4 ≤ (machine [7] [5, 16380]).config.tapeCapacity ∧
    ((16381 : Word).toInt < 0 ∨ ((machine [7] [5, 16381]).config.tapeCapacity : Int) < (16381 : Word).toInt + 4) ∧
    (machine [] [5]).stack.length < 2 ∧
    (nextOf (exec .store (machine [7] [5, 16380]))).isSome := by decide

/-- The highest address whose next word is in bounds too. -/
theorem witness_OverlappingLoad :
    Memory.wf (machine [7] [5, 16379]).tape ∧ (machine [7] [5, 16379]).stack = 5 :: 16379 :: [] ∧
    0 ≤ (16379 : Word).toInt ∧ (16379 : Word).toInt + 5 ≤ (machine [7] [5, 16379]).config.tapeCapacity ∧
    (16380 : Word).toInt = (16379 : Word).toInt + 1 := by decide

/-- STORE at 0 that writes at 1, the highest address in bounds, a HALT. -/
theorem witness_StoredInstruction :
    defaultOpcodeMap.wf ∧ Memory.wf (smallMachine 5 none [0x05] [0x20, 1]).tape ∧
    (smallMachine 5 none [0x05] [0x20, 1]).status = .running ∧
    fetch (smallMachine 5 none [0x05] [0x20, 1]) = .instr .store ∧
    (smallMachine 5 none [0x05] [0x20, 1]).stack = 0x20 :: 1 :: [] ∧ 0 ≤ (1 : Word).toInt ∧
    (1 : Word).toInt + 4 ≤ (smallMachine 5 none [0x05] [0x20, 1]).config.tapeCapacity ∧
    (∀ j < Instr.halt.length, (encode defaultOpcodeMap .halt)[j]? = some
      (if (1 : Word).toNat ≤ 0 + 1 + j ∧ 0 + 1 + j < (1 : Word).toNat + 4 then
        (0x20 : Word).extractLsb' (8 * (0 + 1 + j - (1 : Word).toNat)) 8
      else Memory.get (smallMachine 5 none [0x05] [0x20, 1]).tape (0 + 1 + j))) := by decide

/-- R69's example: a STORE at 0 that writes its own byte and the three after it; what runs next is a
PUSH spelled by three bytes it wrote and two that were there. -/
theorem witness_StoredOverItself :
    fetch (smallMachine 6 none [0x05, 0, 0, 0, 0xCC, 0xDD] [0x0BAA0100, 0]) = .instr .store ∧
    0 ≤ (0 : Word).toInt ∧ (0 : Word).toInt + 4 ≤ (6 : Nat) ∧
    (∀ j < (Instr.push 0xDDCC0BAA).length, (encode defaultOpcodeMap (.push 0xDDCC0BAA))[j]? = some
      (if (0 : Word).toNat ≤ 0 + 1 + j ∧ 0 + 1 + j < (0 : Word).toNat + 4 then
        (0x0BAA0100 : Word).extractLsb' (8 * (0 + 1 + j - (0 : Word).toNat)) 8
      else Memory.get (smallMachine 6 none [0x05, 0, 0, 0, 0xCC, 0xDD] []).tape (0 + 1 + j))) := by
  decide

/-- A READ_STRING at 0 of a SWAP at 1, the last byte of the tape. -/
theorem witness_ReadIntoCode :
    fetch { smallMachine 2 none [0x1F] [1, 1] with textInput := [[0x0E]] } = .instr .readString ∧
    (([0x0E] : List Byte).length : Int) ≤ (1 : Word).toInt ∧
    (1 : Word).toInt + ([0x0E] : List Byte).length ≤ (2 : Nat) ∧
    (∀ j < Instr.swap.length, (encode defaultOpcodeMap .swap)[j]? =
      if (1 : Word).toNat ≤ 0 + 1 + j ∧ 0 + 1 + j < (1 : Word).toNat + ([0x0E] : List Byte).length then
        ([0x0E] : List Byte)[0 + 1 + j - (1 : Word).toNat]?
      else some (Memory.get (smallMachine 2 none [0x1F] []).tape (0 + 1 + j))) := by decide

theorem witness_AddSubMul : (machine [] [4, 3]).stack = 4 :: 3 :: [] ∧ (machine [] [4]).stack.length < 2 := by
  decide

/-- The smallest divisors on both sides of zero, zero, and too few words. -/
theorem witness_DivMod :
    (machine [] [1, -7]).stack = 1 :: (-7) :: [] ∧ (1 : Word).toInt ≠ 0 ∧ (-1 : Word).toInt ≠ 0 ∧
    (0 : Word).toInt = 0 ∧ (machine [] [0, 5]).stack = 0 :: 5 :: [] ∧ (machine [] [0]).stack.length < 2 ∧
    (nextOf (exec .div (machine [] [-1, -2147483648]))).isSome := by decide

/-- The lowest and highest target, the ones just outside, and `IP` at the last byte. -/
theorem witness_CallAndRet :
    (machine [] [16383]).stack = (16383 : Word) :: [] ∧ 0 ≤ (0 : Word).toInt ∧
    (16383 : Word).toInt < (machine [] [16383]).config.tapeCapacity ∧
    (machine [] []).config.tapeCapacity ≤ 2 ^ 31 - 1 ∧
    ({ machine [] [16383] with ip := 16383 } : State).ip < (machine [] []).config.tapeCapacity ∧
    ((-1 : Word).toInt < 0 ∨ (16384 : Int) ≤ (-1 : Word).toInt) ∧
    ((16384 : Word).toInt < 0 ∨ ((machine [] []).config.tapeCapacity : Int) ≤ (16384 : Word).toInt) ∧
    (machine [] []).stack = [] := by decide

theorem witness_RetResumes :
    ({ machine [] [40] with ip := 16382 } : State).stack = 40 :: [] ∧ 0 ≤ (40 : Word).toInt ∧
    (40 : Word).toInt < (machine [] []).config.tapeCapacity ∧
    (machine [] []).config.tapeCapacity ≤ 2 ^ 31 - 1 ∧
    ({ machine [] [40] with ip := 16382 } : State).ip + 1 < (machine [] []).config.tapeCapacity := by decide

theorem witness_DupAndSwap :
    (smallMachine 8 (some 2) [] [5]).stack = 5 :: [] ∧ (smallMachine 8 (some 2) [] [5]).HasRoom ∧
    ¬ (smallMachine 8 (some 1) [] [5]).HasRoom ∧ (machine [] []).stack = [] ∧
    (machine [] [2, 1]).stack = 2 :: 1 :: [] ∧ (machine [] [1]).stack.length < 2 := by decide

theorem witness_CmpAndTest :
    (machine [] [2, 1]).stack = 2 :: 1 :: [] ∧ (machine [] [1]).stack.length < 2 ∧
    (machine [] [1]).stack = 1 :: [] ∧ (machine [] []).stack = [] := by decide

/-- An instruction that is no conditional jump, one that is not CMP, one that is not TEST. -/
theorem witness_Flags :
    (nextOf (exec .cmp (machine [] [2, 1]))).isSome ∧ (nextOf (exec .test (machine [] [1]))).isSome ∧
    Instr.cmp.mnemonic ∉ [Mnemonic.jz, .jnz, .jbz, .jaz, .jl, .jle, .je, .jne, .ja, .jae] ∧
    Instr.jmp 0 ≠ .cmp := by decide

/-- A taken jump to the highest target, to the ones just outside, a jump not taken, and a jump whose
immediate is one byte too long. -/
theorem witness_Jumps :
    0 ≤ (0 : Word).toInt ∧ (16383 : Word).toInt < (machine [] []).config.tapeCapacity ∧
    ((-1 : Word).toInt < 0 ∨ (16384 : Int) ≤ (-1 : Word).toInt) ∧
    ((16384 : Word).toInt < 0 ∨ ((machine [] []).config.tapeCapacity : Int) ≤ (16384 : Word).toInt) ∧
    (machine [] []).flags.zero = false ∧
    ({ machine [] [] with flags := { Flags.reset with above := true } } : State).flags.above = true ∧
    Memory.get (smallMachine 4 none [0x1A] []).tape 0 = defaultOpcodeMap.byteOf (Instr.ja 0).mnemonic ∧
    (smallMachine 4 none [0x1A] []).config.tapeCapacity < 0 + 5 ∧
    (smallMachine 4 none [0x1A] []).config.opcodeMap.wf ∧ (smallMachine 4 none [0x1A] []).status = .running := by
  decide

theorem witness_JumpToItself :
    (smallMachine 5 none [0x11] []).config.opcodeMap.wf ∧ (smallMachine 5 none [0x11] []).status = .running ∧
    (0 : Word).toInt = (smallMachine 5 none [0x11] []).ip ∧
    (smallMachine 5 none [0x11] []).memRead (smallMachine 5 none [0x11] []).ip 5 =
      some (encode defaultOpcodeMap (.jmp 0)) := by decide

theorem witness_PrintInt : (machine [] [-7]).stack = (-7) :: [] ∧ (machine [] []).stack = [] := by decide

/-- The empty text at the tape's end, the last byte, and each way out of bounds by one. -/
theorem witness_PrintString :
    (machine [] [0, 16384]).stack = 0 :: 16384 :: [] ∧ 0 ≤ (0 : Word).toInt ∧ 0 ≤ (16384 : Word).toInt ∧
    (16384 : Word).toInt + (0 : Word).toInt ≤ (machine [] []).config.tapeCapacity ∧
    (16383 : Word).toInt + (1 : Word).toInt ≤ (machine [] []).config.tapeCapacity ∧
    (-1 : Word).toInt < 0 ∧
    ((machine [] []).config.tapeCapacity : Int) < (16383 : Word).toInt + (2 : Word).toInt ∧
    (machine [] [1]).stack.length < 2 := by decide

/-- An answer that is the lowest word, the numbers just outside the words, malformed input, no room. -/
theorem witness_ReadInt :
    ({ machine [] [] with numberInput := [.number (-2147483648)] } : State).numberInput =
      .number (-2147483648 : Word).toInt :: [] ∧ (machine [] []).HasRoom ∧
    ((-2147483649 : Int) < -(2 ^ 31) ∨ (2 : Int) ^ 31 ≤ -2147483649) ∧
    ((2147483648 : Int) < -(2 ^ 31) ∨ (2 : Int) ^ 31 ≤ 2147483648) ∧
    ({ machine [] [] with numberInput := [.malformed] } : State).numberInput = .malformed :: [] ∧
    ¬ (smallMachine 8 (some 0) [] []).HasRoom := by decide

/-- A text that just fits both the buffer and the tape, one byte too long for the buffer, one byte too
long for the tape, too few words. -/
theorem witness_ReadString :
    ({ machine [] [2, 16382] with textInput := [[1, 2]] } : State).stack = 2 :: 16382 :: [] ∧
    ({ machine [] [2, 16382] with textInput := [[1, 2]] } : State).textInput = [1, 2] :: [] ∧
    Memory.wf ({ machine [] [2, 16382] with textInput := [[1, 2]] } : State).tape ∧
    (([1, 2] : List Byte).length : Int) ≤ (2 : Word).toInt ∧ 0 ≤ (16382 : Word).toInt ∧
    (16382 : Word).toInt + ([1, 2] : List Byte).length ≤ (machine [] []).config.tapeCapacity ∧
    (1 : Word).toInt < ([1, 2] : List Byte).length ∧
    ((16383 : Word).toInt < 0 ∨
      ((machine [] []).config.tapeCapacity : Int) < (16383 : Word).toInt + ([1, 2] : List Byte).length) ∧
    (machine [] [1]).stack.length < 2 ∧
    (nextOf (exec .readString { machine [] [2, 16382] with textInput := [[1, 2]] })).isSome := by decide

/-- A READ_INT and a READ_STRING that wait, an answer that is no word, and a text that fits buffer and
tape, one longer than the buffer, and one past the tape. -/
theorem witness_ReadWaits :
    (machine [0x1E] []).HasRoom ∧ (machine [0x1E] []).numberInput = [] ∧
    fetch (machine [0x1E] []) = .instr .readInt ∧ (machine [0x1E] []).status = .running ∧
    2 ≤ (machine [0x1F] [2, 1]).stack.length ∧ (machine [0x1F] [2, 1]).textInput = [] ∧
    fetch (machine [0x1F] [2, 1]) = .instr .readString ∧
    Memory.wf (machine [0x1F] [2, 1]).tape ∧ (machine [0x1F] [2, 16382]).stack = 2 :: 16382 :: [] ∧
    (([1, 2] : List Byte).length : Int) ≤ (2 : Word).toInt ∧ 0 ≤ (16382 : Word).toInt ∧
    (16382 : Word).toInt + ([1, 2] : List Byte).length ≤ (machine [] []).config.tapeCapacity ∧
    (2 : Word).toInt < ([1, 2, 3] : List Byte).length ∧
    ((machine [] []).config.tapeCapacity : Int) < (16383 : Word).toInt + ([1, 2] : List Byte).length := by
  decide

/-- The least integer above the words is the number of none of them. -/
theorem witness_ReadWaits_noWord : ∀ w : Word, NumberAnswer.number (2 ^ 31) ≠ .number w.toInt := by
  intro w h
  have := BitVec.toInt_lt (x := w)
  simp only [NumberAnswer.number.injEq] at h
  omega

theorem witness_Output :
    (nextOf (step (machine [0x00] []))).isSome ∧ (nextOf (step (machine [0x1C] [1]))).isSome ∧
    (nextOf (step (machine [0x1D] [0, 0]))).isSome := by decide

/-- A form that stores nothing, the two that store, a print, a read, and HALT. -/
theorem witness_Frame :
    (nextOf (exec .cmp (machine [] [2, 1]))).isSome ∧ (nextOf (exec .store (machine [] [2, 1]))).isSome ∧
    (nextOf (exec .printInt (machine [] [2]))).isSome ∧ (nextOf (exec .readInt (machine [] []))).isSome ∧
    (nextOf (exec .halt (machine [] []))).isSome := by decide

/-- An instruction that completes over a deeper stack. -/
theorem witness_StackFrame :
    (nextOf (exec .add (machine [] [1, 2, 3]))).map State.status = some .running ∧
    (nextOf (exec .readInt { machine [] [3] with numberInput := [.number 7] })).map State.status =
      some .running ∧
    ({ machine [] [3] with numberInput := [.number 7] } : State).numberInput ≠ [] := by decide

end Sys2Proof.Tests
end

section
/-! PROOFS. The statements of spec/00_scope.md: the decoder undoes the encoder (R8), the wrap (R11),
what a fault leaves as it was (R13). -/

namespace Sys2Proof

/-! ### Words -/

/-- `Decode` of the four bytes of `Encode(v)` is `v` (R54 to R56). -/
theorem decodeWord_encodeWord (v : Word) :
    decodeWord (v.extractLsb' 0 8) (v.extractLsb' 8 8) (v.extractLsb' 16 8) (v.extractLsb' 24 8) = v := by
  apply BitVec.eq_of_toNat_eq
  have := v.isLt
  simp only [decodeWord, BitVec.extractLsb'_toNat, BitVec.toNat_ofNat, Nat.shiftRight_eq_div_pow]
  omega

/-- Settles O8: a word is its own balanced residue modulo `2^32`, and `wrap32(x)` is that of `x`. -/
theorem wrapIsTheCongruentWord : Obligations.WrapIsTheCongruentWord := by
  intro x w
  calc w = wrap32 x
      ↔ w.toInt.bmod (2 ^ 32) = x.bmod (2 ^ 32) := by
        rw [BitVec.toInt_bmod_cancel, ← BitVec.toInt_inj, wrap32, BitVec.toInt_ofInt]
    _ ↔ (w.toInt - x).bmod (2 ^ 32) = 0 := Int.bmod_eq_bmod_iff_bmod_sub_eq_zero
    _ ↔ (2 ^ 32 : Int) ∣ w.toInt - x := Int.dvd_iff_bmod_eq_zero.symm

/-! ### The decoder on an encoding -/

/-- An instruction is its mnemonic with its immediate; the 0 of a format without one is not looked at. -/
theorem Instr.instr_mnemonic (i : Instr) : i.mnemonic.instr (i.immediate.getD 0) = i := by
  cases i <;> rfl

/-- The format column of R84 says which instructions have an immediate. -/
theorem Instr.format_mnemonic (i : Instr) :
    i.mnemonic.format = if i.immediate.isSome then .i else .n := by
  cases i <;> rfl

/-- Format `N` (R81): the opcode byte is the whole instruction. -/
theorem decode_byteOf_formatN {m : OpcodeMap} (hm : m.wf) {k : Mnemonic} (hk : k.format = .n)
    (rest : List Byte) : decode m (m.byteOf k :: rest) = .instr (k.instr 0) rest := by
  simp [decode, OpcodeMap.lookup_byteOf hm, Mnemonic.entry, hk]

/-- Format `I` (R82): the opcode byte and the four bytes of the immediate. -/
theorem decode_byteOf_formatI {m : OpcodeMap} (hm : m.wf) {k : Mnemonic} (hk : k.format = .i)
    (imm : Word) (rest : List Byte) :
    decode m (m.byteOf k :: (encodeWord imm ++ rest)) = .instr (k.instr imm) rest := by
  simp [decode, OpcodeMap.lookup_byteOf hm, Mnemonic.entry, hk, encodeWord, decodeWord_encodeWord]

/-- Settles O2, by the two formats: the injective map finds the mnemonic's entry, the entry's format
says whether an immediate follows, and the word codec gives the immediate back. -/
theorem decodeOfEncodeIsTheInstruction : Obligations.DecodeOfEncodeIsTheInstruction := by
  intro m i rest hm
  have hformat := i.format_mnemonic
  have hinstr := i.instr_mnemonic
  cases himm : i.immediate with
  | none =>
    rw [himm] at hformat hinstr
    have henc : encode m i ++ rest = m.byteOf i.mnemonic :: rest := by simp [encode, himm]
    rw [henc, decode_byteOf_formatN hm hformat]
    exact congrArg (Decoded.instr · rest) hinstr
  | some imm =>
    rw [himm] at hformat hinstr
    have henc : encode m i ++ rest = m.byteOf i.mnemonic :: (encodeWord imm ++ rest) := by
      simp [encode, himm]
    rw [henc, decode_byteOf_formatI hm hformat]
    exact congrArg (Decoded.instr · rest) hinstr

end Sys2Proof

namespace Sys2Proof.Machine

/-! ### Faults -/

/-- `b` is `s` but for an input that instruction `i` may have consumed before it raises a fault (R13):
a number by READ_INT, a text by READ_STRING. -/
inductive FaultBase (s : State) : Instr → State → Prop where
  | unchanged (i : Instr) : FaultBase s i s
  | number (r : NumberAnswer) (more : List NumberAnswer) (h : s.numberInput = r :: more) :
      FaultBase s .readInt (s.setNumberInput more)
  | text (bs : List Byte) (more : List (List Byte)) (h : s.textInput = bs :: more) :
      FaultBase s .readString (s.setTextInput more)

/-- What R13 asks of the answer `r` of instruction `i` in `s`: if it is a fault, only the status differs
from a state that `i` may raise the fault in. -/
def FaultsCleanly (s : State) (i : Instr) (r : StepResult) : Prop :=
  ∀ t k, r = .next t → t.status = .faulted k → ∃ b, FaultBase s i b ∧ t = b.setStatus (.faulted k)

section FaultsCleanly

variable {s b u : State} {i : Instr}

/-- A state that is not `Faulted` is no fault, so R13 asks nothing of it. -/
theorem faultsCleanly_next (h : ∀ k, u.status ≠ .faulted k) : FaultsCleanly s i (.next u) := by
  intro t k ht hk
  obtain rfl : u = t := by simpa using ht
  exact absurd hk (h k)

/-- An instruction that completes without a word about the status leaves a running machine running. -/
theorem faultsCleanly_completes (hr : s.status = .running) (h : u.status = s.status) :
    FaultsCleanly s i (.next u) :=
  faultsCleanly_next (by simp [h, hr])

theorem faultsCleanly_raise (e : FaultKind) (hb : FaultBase s i b) :
    FaultsCleanly s i (raise e b) := by
  intro t k ht hk
  obtain rfl := raise_next ht
  obtain rfl : e = k := by simpa using hk
  exact ⟨b, hb, rfl⟩

theorem faultsCleanly_needOne {body : Word → List Word → StepResult}
    (h : ∀ x rest, FaultsCleanly s i (body x rest)) : FaultsCleanly s i (needOne s body) := by
  intro t k ht hk
  rcases needOne_next ht with ⟨-, rfl⟩ | ⟨x, rest, -, hbody⟩
  · exact faultsCleanly_raise _ (.unchanged i) _ k rfl hk
  · exact h x rest t k hbody hk

theorem faultsCleanly_needTwo {body : Word → Word → List Word → StepResult}
    (h : ∀ x y rest, FaultsCleanly s i (body x y rest)) : FaultsCleanly s i (needTwo s body) := by
  intro t k ht hk
  rcases needTwo_next ht with ⟨-, rfl⟩ | ⟨x, y, rest, -, hbody⟩
  · exact faultsCleanly_raise _ (.unchanged i) _ k rfl hk
  · exact h x y rest t k hbody hk

theorem faultsCleanly_room {body : StepResult} (h : FaultsCleanly s i body) :
    FaultsCleanly s i (room s body) := by
  intro t k ht hk
  rcases room_next ht with ⟨-, rfl⟩ | ⟨-, hbody⟩
  · exact faultsCleanly_raise _ (.unchanged i) _ k rfl hk
  · exact h t k hbody hk

theorem faultsCleanly_pushImmediate (hr : s.status = .running) (imm : Word) :
    FaultsCleanly s i (pushImmediate imm s) :=
  faultsCleanly_room (faultsCleanly_completes hr rfl)

theorem faultsCleanly_arith (hr : s.status = .running) (op : ArithOp) :
    FaultsCleanly s i (arith op s) := by
  refine faultsCleanly_needTwo fun b a rest => ?_
  split
  · exact faultsCleanly_raise _ (.unchanged i)
  · exact faultsCleanly_completes hr rfl

theorem faultsCleanly_jump (hr : s.status = .running) (k : Mnemonic) (imm : Word) :
    FaultsCleanly s i (jump k imm s) := by
  intro t e ht he
  rcases jump_next ht with ⟨-, rfl⟩ | ⟨-, -, rfl⟩ | ⟨a, -, -, rfl⟩
  · exact faultsCleanly_completes hr (by simp) _ e rfl he
  · exact faultsCleanly_raise _ (.unchanged i) _ e rfl he
  · exact faultsCleanly_completes hr (by simp) _ e rfl he

theorem faultsCleanly_printString (hr : s.status = .running) :
    FaultsCleanly s .printString (execPrintString s) := by
  refine faultsCleanly_needTwo fun len addr rest => ?_
  split
  · exact faultsCleanly_raise _ (.unchanged _)
  · split
    · exact faultsCleanly_raise _ (.unchanged _)
    · exact faultsCleanly_completes hr rfl

/-- READ_INT raises `IOFormatError` only after it has consumed the answer (R194). -/
theorem faultsCleanly_readInt (hr : s.status = .running) :
    FaultsCleanly s .readInt (execReadInt s) := by
  refine faultsCleanly_room ?_
  split
  · exact faultsCleanly_completes hr rfl
  · next more hq => exact faultsCleanly_raise _ (.number _ more hq)
  · next n more hq =>
    split
    · exact faultsCleanly_completes hr rfl
    · exact faultsCleanly_raise _ (.number _ more hq)

/-- READ_STRING checks the address only when it has consumed a text that fits the buffer (R195). -/
theorem faultsCleanly_readString (hr : s.status = .running) :
    FaultsCleanly s .readString (execReadString s) := by
  refine faultsCleanly_needTwo fun bufLen addr rest => ?_
  split
  · exact faultsCleanly_completes hr rfl
  · next bs more hq =>
    split
    · exact faultsCleanly_completes hr rfl
    · split
      · exact faultsCleanly_raise _ (.text bs more hq)
      · exact faultsCleanly_completes hr rfl

/-- R13 of every instruction: each shared operation faults cleanly, and so does what is built of them. -/
theorem exec_faultsCleanly (hr : s.status = .running) : FaultsCleanly s i (exec i s) := by
  cases i with
  | nop => exact faultsCleanly_completes hr rfl
  | push imm | const imm => exact faultsCleanly_pushImmediate hr imm
  | pop | test | printInt => exact faultsCleanly_needOne fun _ _ => faultsCleanly_completes hr rfl
  | swap | cmp => exact faultsCleanly_needTwo fun _ _ _ => faultsCleanly_completes hr rfl
  | dup =>
    exact faultsCleanly_needOne fun _ _ => faultsCleanly_room (faultsCleanly_completes hr rfl)
  | add | sub | mul | div | mod => exact faultsCleanly_arith hr _
  | load | call | ret =>
    refine faultsCleanly_needOne fun a rest => ?_
    split
    · exact faultsCleanly_raise _ (.unchanged _)
    · exact faultsCleanly_completes hr rfl
  | store =>
    refine faultsCleanly_needTwo fun v a rest => ?_
    split
    · exact faultsCleanly_raise _ (.unchanged _)
    · exact faultsCleanly_completes hr rfl
  | jmp imm => exact faultsCleanly_jump hr .jmp imm
  | jz imm | jnz imm | jbz imm | jaz imm | jl imm | jle imm | je imm | jne imm | ja imm | jae imm =>
    exact faultsCleanly_jump hr _ imm
  | printString => exact faultsCleanly_printString hr
  | readInt => exact faultsCleanly_readInt hr
  | readString => exact faultsCleanly_readString hr
  | halt => exact faultsCleanly_next (fun _ => by simp)

end FaultsCleanly

/-- Settles O24: a fault of the fetch is raised in the state itself, and one of an instruction in a
state its operation may raise it in. -/
theorem faultLeavesTheStateUnchanged : Obligations.FaultLeavesTheStateUnchanged := by
  intro s t k hstep hk
  obtain ⟨hr, ⟨-, rfl⟩ | ⟨e, -, rfl⟩ | ⟨i, hfetch, hexec⟩⟩ := step_next hstep
  · simp at hk
  · obtain rfl : e = k := by simpa using hk
    exact .inl rfl
  · obtain ⟨b, hb, rfl⟩ := exec_faultsCleanly hr t k hexec hk
    cases hb with
    | unchanged => exact .inl rfl
    | number r more hq => exact .inr (.inl ⟨hfetch, r, more, hq, rfl⟩)
    | text bs more hq => exact .inr (.inr ⟨hfetch, bs, more, hq, rfl⟩)

end Sys2Proof.Machine
end

section
/-! PROOFS. The statements of spec/10_state.md: what every step keeps (R21, R22, R25), the operand checks
(R25, R26), who writes and reads the flags (R28), the ended states (R32), the wait for input (R36), what
a load leaves (R37 to R41). -/

namespace Sys2Proof

/-- The row of R84 that an instruction was made from. -/
@[simp] theorem Mnemonic.mnemonic_instr (k : Mnemonic) (imm : Word) : (k.instr imm).mnemonic = k := by
  cases k <;> rfl

/-- No instruction pushes more than one word beyond those it pops (R84). -/
theorem Mnemonic.pushes_le_pops_add_one (k : Mnemonic) : k.pushes ≤ k.pops + 1 := by
  cases k <;> decide

/-- A decoded instruction and the bytes after it make up the bytes decoded (R81, R82). -/
theorem length_of_decode {m : OpcodeMap} {bs rest : List Byte} {i : Instr}
    (h : decode m bs = .instr i rest) : bs.length = i.length + rest.length := by
  unfold decode at h
  split at h
  · exact nomatch h
  · split at h
    · exact nomatch h
    · next e he =>
      obtain ⟨k, rfl, -⟩ := OpcodeMap.lookup_eq_some he
      split at h
      · next hf =>
        obtain ⟨rfl, rfl⟩ := Decoded.instr.inj h
        have hk : k.format = .n := hf
        simp [Instr.length, Mnemonic.entry, hk, Format.length, Nat.add_comm]
      · next hf =>
        have hk : k.format = .i := hf
        split at h
        · obtain ⟨rfl, rfl⟩ := Decoded.instr.inj h
          simp [Instr.length, Mnemonic.entry, hk, Format.length]
          omega
        · exact nomatch h

end Sys2Proof

namespace Sys2Proof.Machine

/-! ### The tape -/

/-- The cells of a tape in canonical form are its bytes that are not 0. -/
theorem Memory.mem_iff_get {m : Memory} (h : Memory.wf m) {a : Nat} {b : Byte} :
    (a, b) ∈ m ↔ Memory.get m a = b ∧ b ≠ 0 := by
  induction m with
  | nil => simpa using fun h => h.symm
  | cons c m ih =>
    obtain ⟨x, v⟩ := c
    have hx := Memory.above_head h
    have hv : v ≠ 0 := h.2 _ (List.mem_cons_self ..)
    rw [List.mem_cons, ih (Memory.wf_tail h), Memory.get]
    split
    · next hxa =>
      subst hxa
      rw [Memory.get_eq_zero_of_below hx]
      constructor
      · rintro (h | ⟨rfl, hb⟩)
        · obtain rfl : b = v := congrArg Prod.snd h
          exact ⟨rfl, hv⟩
        · exact absurd rfl hb
      · rintro ⟨rfl, -⟩
        exact .inl rfl
    · next hxa => simp [Ne.symm hxa]

/-- Settles O23: both lists are sorted by address and have the same cells, those of the bytes that are
not 0. -/
theorem equalTapesAreEqualData : Obligations.EqualTapesAreEqualData := by
  intro m m' hm hm' hget
  have hmem : ∀ c, c ∈ m ↔ c ∈ m' := fun (a, b) => by
    rw [Memory.mem_iff_get hm, Memory.mem_iff_get hm', hget]
  exact hm.1.eq_of_mem_iff hm'.1 hmem

/-! ### The flags -/

/-- The four values a comparison of `a` with `b` leaves in a family (R160, R161). -/
theorem familyLegal_order (a b : Int) :
    familyLegal (decide (a = b)) (decide (a ≠ b)) (decide (a > b)) (decide (a < b)) = true := by
  rcases lt_trichotomy a b with h | h | h
  · simp [familyLegal, h, h.ne, h.not_gt]
  · simp [familyLegal, h]
  · simp [familyLegal, h, h.ne', h.not_gt]

theorem Flags.compare_legal {f : Flags} (h : f.legal = true) (a b : Word) :
    (f.compare a b).legal = true := by
  rw [Flags.legal, Bool.and_eq_true] at h ⊢
  exact ⟨familyLegal_order _ _, h.2⟩

theorem Flags.signTest_legal {f : Flags} (h : f.legal = true) (a : Word) :
    (f.signTest a).legal = true := by
  rw [Flags.legal, Bool.and_eq_true] at h ⊢
  exact ⟨h.1, familyLegal_order _ _⟩

/-! ### What an instruction can answer -/

/-- The operand checks of `i` pass: the depth (R26), and the room if `i` pushes more than it pops (R25). -/
def Checked (s : State) (i : Instr) : Prop :=
  i.mnemonic.pops ≤ s.stack.length ∧ (i.mnemonic.pops < i.mnemonic.pushes → s.HasRoom)

/-- `i` goes on with the bytes after it: it is no CALL, no RET and no taken jump (R91). -/
def FallsThrough (s : State) (i : Instr) : Prop :=
  i ≠ .call ∧ i ≠ .ret ∧ s.flags.condition i.mnemonic = false

/-- What holds between `s` and the state `t` that `i` leaves when it completes. -/
structure Completes (s : State) (i : Instr) (t : State) : Prop where
  config : t.config = s.config
  status : t.status = s.status ∨ ∃ c, t.status = .halted c
  tape : t.tape = s.tape ∨
    ∃ a bs, a + bs.length ≤ s.config.tapeCapacity ∧ t.tape = Memory.writeRun s.tape a bs
  stack : t.stack.length + i.mnemonic.pops = s.stack.length + i.mnemonic.pushes
  flags : t.flags = s.flags ∨ (i = .cmp ∧ ∃ a b, t.flags = s.flags.compare a b) ∨
    (i = .test ∧ ∃ a, t.flags = s.flags.signTest a)
  ip : FallsThrough s i ∧ t.ip = s.ip + i.length ∨ t.ip < s.config.tapeCapacity

/-- Everything instruction `i` can answer in `s`: a fault of the operand checks, in their order, or
with the checks passed another fault (R13), the wait for input (R36), a completion. -/
inductive Answer (s : State) (i : Instr) : StepResult → Prop where
  | underflow (hd : s.stack.length < i.mnemonic.pops) :
      Answer s i (.next (s.setStatus (.faulted .stackUnderflowError)))
  | overflow (hd : i.mnemonic.pops ≤ s.stack.length) (hp : i.mnemonic.pops < i.mnemonic.pushes)
      (hr : ¬ s.HasRoom) : Answer s i (.next (s.setStatus (.faulted .stackOverflowError)))
  | fault (k : FaultKind) (b : State) (hc : Checked s i) (hb : FaultBase s i b)
      (hk : k ≠ .stackUnderflowError ∧ k ≠ .stackOverflowError) :
      Answer s i (.next (b.setStatus (.faulted k)))
  | wait (hc : Checked s i) : Answer s i (.next s)
  | complete (t : State) (hc : Checked s i) (ht : Completes s i t) : Answer s i (.next t)

section Answer

variable {s t : State} {i : Instr}

theorem Checked.of_pushes_le (hd : i.mnemonic.pops ≤ s.stack.length)
    (hp : i.mnemonic.pushes ≤ i.mnemonic.pops) : Checked s i :=
  ⟨hd, fun h => absurd h (by omega)⟩

/-- Where an instruction without a target writes neither the tape nor the flags. -/
theorem Completes.of_frame (hconfig : t.config = s.config) (hstatus : t.status = s.status)
    (htape : t.tape = s.tape) (hflags : t.flags = s.flags) (hip : t.ip = s.ip + i.length)
    (hi : FallsThrough s i)
    (hstack : t.stack.length + i.mnemonic.pops = s.stack.length + i.mnemonic.pushes) :
    Completes s i t :=
  ⟨hconfig, .inl hstatus, .inl htape, hstack, .inl hflags, .inl ⟨hi, hip⟩⟩

theorem answer_needOne {body : Word → List Word → StepResult} (hp : i.mnemonic.pops = 1)
    (h : ∀ x rest, s.stack = x :: rest → i.mnemonic.pops ≤ s.stack.length → Answer s i (body x rest)) :
    Answer s i (needOne s body) := by
  cases hs : s.stack with
  | nil =>
    rw [needOne_of_nil hs]
    exact .underflow (by simp [hs, hp])
  | cons x rest =>
    rw [needOne_of_cons hs]
    exact h x rest hs (by simp [hs, hp])

theorem exists_two_of_depth (h : 2 ≤ s.stack.length) : ∃ x y rest, s.stack = x :: y :: rest := by
  match hs : s.stack with
  | x :: y :: rest => exact ⟨x, y, rest, rfl⟩
  | [_] => simp [hs] at h
  | [] => simp [hs] at h

theorem answer_needTwo {body : Word → Word → List Word → StepResult} (hp : i.mnemonic.pops = 2)
    (hq : i.mnemonic.pushes ≤ 2)
    (h : ∀ x y rest, s.stack = x :: y :: rest → Checked s i → Answer s i (body x y rest)) :
    Answer s i (needTwo s body) := by
  by_cases hd : s.stack.length < 2
  · rw [needTwo_of_short hd]
    exact .underflow (hp ▸ hd)
  · obtain ⟨x, y, rest, hs⟩ := exists_two_of_depth (Nat.le_of_not_lt hd)
    rw [needTwo_of_cons hs]
    exact h x y rest hs (.of_pushes_le (by omega) (by omega))

theorem answer_room {body : StepResult} (hd : i.mnemonic.pops ≤ s.stack.length)
    (hp : i.mnemonic.pops < i.mnemonic.pushes) (h : Checked s i → Answer s i body) :
    Answer s i (room s body) := by
  by_cases hr : s.HasRoom
  · rw [room_of_hasRoom hr]
    exact h ⟨hd, fun _ => hr⟩
  · rw [room_of_full hr]
    exact .overflow hd hp hr

theorem answer_boundsError (hc : Checked s i) : Answer s i (raise .boundsError s) :=
  .fault _ s hc (.unchanged i) (by decide)

theorem answer_pushImmediate (imm : Word) (hp : i.mnemonic.pops = 0) (hq : i.mnemonic.pushes = 1)
    (hlen : i.length = 5) (hi : FallsThrough s i) : Answer s i (pushImmediate imm s) := by
  refine answer_room (by omega) (by omega) fun hc => .complete _ hc ?_
  exact .of_frame rfl rfl rfl rfl (by simp [hlen]) hi (by simp [hp, hq])

theorem answer_arith (op : ArithOp) (hp : i.mnemonic.pops = 2) (hq : i.mnemonic.pushes = 1)
    (hlen : i.length = 1) (hi : FallsThrough s i) : Answer s i (arith op s) := by
  refine answer_needTwo hp (by omega) fun b a rest hs hc => ?_
  split
  · exact .fault _ s hc (.unchanged i) (by decide)
  · exact .complete _ hc (.of_frame rfl rfl rfl rfl (by simp [hlen]) hi (by simp [hs, hp, hq]))

theorem answer_jump (imm : Word) (hp : i.mnemonic.pops = 0) (hq : i.mnemonic.pushes = 0)
    (hlen : i.length = 5) (hcall : i ≠ .call) (hret : i ≠ .ret) :
    Answer s i (jump i.mnemonic imm s) := by
  have hc : Checked s i := .of_pushes_le (by omega) (by omega)
  unfold jump
  split
  · split
    · exact answer_boundsError hc
    · next a ht =>
      exact .complete _ hc
        ⟨rfl, .inl rfl, .inl rfl, by simp [hp, hq], .inl rfl, .inr (target_eq_some.1 ht).2⟩
  · next hcond =>
    have hi : FallsThrough s i := ⟨hcall, hret, by simpa using hcond⟩
    exact .complete _ hc (.of_frame rfl rfl rfl rfl (by simp [hlen]) hi (by simp [hp, hq]))

/-- CALL and RET (R140, R141): the target on top is checked, then control goes there with `st` as the stack. -/
theorem answer_toTarget {st : List Word → List Word} (hp : i.mnemonic.pops = 1)
    (hq : i.mnemonic.pushes ≤ 1) (hst : ∀ rest, (st rest).length = rest.length + i.mnemonic.pushes) :
    Answer s i (needOne s fun w rest =>
      match s.target w with
      | none => raise .boundsError s
      | some a => .next ((s.setStack (st rest)).setIp a)) := by
  refine answer_needOne hp fun w rest hs hd => ?_
  have hc : Checked s i := .of_pushes_le hd (by omega)
  split
  · exact answer_boundsError hc
  · next a ht =>
    have hstack : (st rest).length + i.mnemonic.pops = s.stack.length + i.mnemonic.pushes := by
      rw [hst, hs, hp, List.length_cons]
      omega
    exact .complete _ hc
      ⟨rfl, .inl rfl, .inl rfl, hstack, .inl rfl, .inr (target_eq_some.1 ht).2⟩

theorem answer_load : Answer s .load (execLoad s) := by
  refine answer_needOne rfl fun a rest hs hd => ?_
  have hc : Checked s .load := .of_pushes_le hd (by decide)
  split
  · exact answer_boundsError hc
  · exact .complete _ hc (.of_frame rfl rfl rfl rfl rfl ⟨nofun, nofun, rfl⟩ (by rw [hs]; rfl))

theorem answer_store : Answer s .store (execStore s) := by
  refine answer_needTwo rfl (by decide) fun v a rest hs hc => ?_
  split
  · exact answer_boundsError hc
  · next tape hw =>
    obtain ⟨⟨ha, hfit⟩, rfl⟩ := writeWord_eq_some.1 hw
    have hfit : a.toInt.toNat + (encodeWord v).length ≤ s.config.tapeCapacity := by
      rw [encodeWord_length]
      omega
    exact .complete _ hc ⟨rfl, .inl rfl, .inr ⟨_, _, hfit, rfl⟩, by rw [hs]; rfl, .inl rfl,
      .inl ⟨⟨nofun, nofun, rfl⟩, rfl⟩⟩

theorem answer_dup : Answer s .dup (execDup s) := by
  refine answer_needOne rfl fun v rest hs hd => ?_
  refine answer_room hd (by decide) fun hc => .complete _ hc ?_
  exact .of_frame rfl rfl rfl rfl rfl ⟨nofun, nofun, rfl⟩ (by rw [hs]; rfl)

theorem answer_printString : Answer s .printString (execPrintString s) := by
  refine answer_needTwo rfl (by decide) fun len addr rest hs hc => ?_
  split
  · exact answer_boundsError hc
  · split
    · exact answer_boundsError hc
    · exact .complete _ hc (.of_frame rfl rfl rfl rfl rfl ⟨nofun, nofun, rfl⟩ (by rw [hs]; rfl))

theorem answer_readInt : Answer s .readInt (execReadInt s) := by
  refine answer_room (Nat.zero_le _) (by decide) fun hc => ?_
  split
  · exact .wait hc
  · next more hq => exact .fault _ _ hc (.number _ more hq) (by decide)
  · next n more hq =>
    split
    · exact .complete _ hc (.of_frame rfl rfl rfl rfl rfl ⟨nofun, nofun, rfl⟩ rfl)
    · exact .fault _ _ hc (.number _ more hq) (by decide)

theorem answer_readString : Answer s .readString (execReadString s) := by
  refine answer_needTwo rfl (by decide) fun bufLen addr rest hs hc => ?_
  split
  · exact .wait hc
  · next bs more hq =>
    split
    · exact .complete _ hc (.of_frame rfl rfl rfl rfl rfl ⟨nofun, nofun, rfl⟩ (by rw [hs]; rfl))
    · split
      · exact .fault _ _ hc (.text bs more hq) (by decide)
      · next tape hw =>
        obtain ⟨⟨ha, hfit⟩, rfl⟩ := memWrite_eq_some.1 hw
        exact .complete _ hc ⟨rfl, .inl rfl, .inr ⟨_, _, by omega, rfl⟩, by rw [hs]; rfl, .inl rfl,
          .inl ⟨⟨nofun, nofun, rfl⟩, rfl⟩⟩

/-- Every instruction answers as its row of R84 says; later proofs take the answer apart and do not
look at the instruction again. -/
theorem exec_answer (i : Instr) (s : State) : Answer s i (exec i s) := by
  cases i with
  | nop =>
    exact .complete _ (.of_pushes_le (Nat.zero_le _) (by decide))
      (.of_frame rfl rfl rfl rfl rfl ⟨nofun, nofun, rfl⟩ rfl)
  | push imm | const imm => exact answer_pushImmediate imm rfl rfl rfl ⟨nofun, nofun, rfl⟩
  | pop | printInt =>
    exact answer_needOne rfl fun x rest hs hd => .complete _ (.of_pushes_le hd (by decide))
      (.of_frame rfl rfl rfl rfl rfl ⟨nofun, nofun, rfl⟩ (by rw [hs]; rfl))
  | load => exact answer_load
  | store => exact answer_store
  | add | sub | mul | div | mod => exact answer_arith _ rfl rfl rfl ⟨nofun, nofun, rfl⟩
  | call => exact answer_toTarget (st := (s.returnAddress :: ·)) rfl (by decide) fun _ => rfl
  | ret => exact answer_toTarget (st := id) rfl (by decide) fun _ => rfl
  | dup => exact answer_dup
  | swap =>
    exact answer_needTwo rfl (by decide) fun x y rest hs hc => .complete _ hc
      (.of_frame rfl rfl rfl rfl rfl ⟨nofun, nofun, rfl⟩ (by rw [hs]; rfl))
  | cmp =>
    exact answer_needTwo rfl (by decide) fun b a rest hs hc => .complete _ hc
      ⟨rfl, .inl rfl, .inl rfl, by rw [hs]; rfl, .inr (.inl ⟨rfl, a, b, rfl⟩),
        .inl ⟨⟨nofun, nofun, rfl⟩, rfl⟩⟩
  | test =>
    exact answer_needOne rfl fun a rest hs hd => .complete _ (.of_pushes_le hd (by decide))
      ⟨rfl, .inl rfl, .inl rfl, by rw [hs]; rfl, .inr (.inr ⟨rfl, a, rfl⟩),
        .inl ⟨⟨nofun, nofun, rfl⟩, rfl⟩⟩
  | jmp imm | jz imm | jnz imm | jbz imm | jaz imm | jl imm | jle imm | je imm | jne imm | ja imm
  | jae imm => exact answer_jump imm rfl rfl rfl nofun nofun
  | printString => exact answer_printString
  | readInt => exact answer_readInt
  | readString => exact answer_readString
  | halt =>
    exact .complete _ (.of_pushes_le (Nat.zero_le _) (by decide)) ⟨rfl, .inr ⟨_, rfl⟩, .inl rfl, rfl,
      .inl rfl, .inl ⟨⟨nofun, nofun, rfl⟩, rfl⟩⟩

theorem answer_of_exec (h : exec i s = .next t) : Answer s i (.next t) := h ▸ exec_answer i s

end Answer

/-! ### What a step can do -/

/-- `t` is `s` but for its status and its channels, as after a fault, a wait or the end of the tape. -/
structure Untouched (s t : State) : Prop where
  config : t.config = s.config
  tape : t.tape = s.tape
  ip : t.ip = s.ip
  stack : t.stack = s.stack
  flags : t.flags = s.flags

section Step

variable {s t : State} {i : Instr}

theorem untouched_setStatus (st : Status) : Untouched s (s.setStatus st) := ⟨rfl, rfl, rfl, rfl, rfl⟩

theorem FaultBase.untouched {b : State} (hb : FaultBase s i b) (k : FaultKind) :
    Untouched s (b.setStatus (.faulted k)) := by
  cases hb <;> exact ⟨rfl, rfl, rfl, rfl, rfl⟩

/-- An instruction either completes, its operand checks passed, or touches nothing of the block's state
but the status. -/
theorem exec_next (h : exec i s = .next t) : Untouched s t ∨ Checked s i ∧ Completes s i t := by
  cases answer_of_exec h with
  | underflow | overflow => exact .inl (untouched_setStatus _)
  | fault k b _ hb => exact .inl (hb.untouched k)
  | wait => exact .inl ⟨rfl, rfl, rfl, rfl, rfl⟩
  | complete _ hc ht => exact .inr ⟨hc, ht⟩

theorem step_next_completes (h : step s = .next t) :
    Untouched s t ∨ ∃ i, fetch s = .instr i ∧ Checked s i ∧ Completes s i t := by
  obtain ⟨-, ⟨-, rfl⟩ | ⟨k, -, rfl⟩ | ⟨i, hf, hexec⟩⟩ := step_next h
  · exact .inl (untouched_setStatus _)
  · exact .inl (untouched_setStatus _)
  · exact (exec_next hexec).imp id fun hcomp => ⟨i, hf, hcomp⟩

/-- A fetched instruction lies in the tape (R88, R89). -/
theorem fetch_instr_fits (h : fetch s = .instr i) : s.ip + i.length ≤ s.config.tapeCapacity := by
  obtain ⟨hlt, rest, hdec⟩ := fetch_instr.1 h
  have hlen := length_of_decode hdec
  rw [window_length] at hlen
  omega

/-! ### What every step keeps -/

/-- Within its capacity the stack stays so: what pushes more than it pops has had its room checked (R25). -/
theorem Completes.stack_within (ht : Completes s i t) (hc : Checked s i)
    (h : ∀ n ∈ s.config.stackCapacity, s.stack.length ≤ n) :
    ∀ n ∈ t.config.stackCapacity, t.stack.length ≤ n := by
  intro n hn
  rw [ht.config] at hn
  have hbound := h n hn
  have hpush := i.mnemonic.pushes_le_pops_add_one
  have hstack := ht.stack
  by_cases hp : i.mnemonic.pops < i.mnemonic.pushes
  · have := hc.2 hp n hn
    omega
  · omega

theorem Completes.tape_wf (ht : Completes s i t) (h : Memory.wf s.tape) : Memory.wf t.tape := by
  obtain htape | ⟨a, bs, -, htape⟩ := ht.tape
  · exact htape ▸ h
  · exact htape ▸ Memory.writeRun_wf h a bs

theorem Completes.tape_within (ht : Completes s i t)
    (h : Memory.within s.config.tapeCapacity s.tape) : Memory.within t.config.tapeCapacity t.tape := by
  rw [ht.config]
  obtain htape | ⟨a, bs, hfit, htape⟩ := ht.tape
  · exact htape ▸ h
  · exact htape ▸ Memory.writeRun_within h hfit

theorem Completes.flags_legal (ht : Completes s i t) (h : s.flags.legal = true) :
    t.flags.legal = true := by
  obtain hf | ⟨-, a, b, hf⟩ | ⟨-, a, hf⟩ := ht.flags
  · exact hf ▸ h
  · exact hf ▸ Flags.compare_legal h a b
  · exact hf ▸ Flags.signTest_legal h a

theorem Completes.ip_le (ht : Completes s i t) (hfit : s.ip + i.length ≤ s.config.tapeCapacity) :
    t.ip ≤ t.config.tapeCapacity := by
  rw [ht.config]
  obtain ⟨-, hip⟩ | hip := ht.ip
  · exact hip ▸ hfit
  · exact hip.le

theorem Untouched.inv (h : Untouched s t) (hs : s.Inv) : t.Inv := by
  unfold State.Inv
  rwa [h.config, h.tape, h.ip, h.stack, h.flags]

theorem Completes.inv (ht : Completes s i t) (hc : Checked s i)
    (hfit : s.ip + i.length ≤ s.config.tapeCapacity) (hs : s.Inv) : t.Inv := by
  obtain ⟨hconfig, hwf, hwithin, -, hstack, hflags⟩ := hs
  exact ⟨ht.config ▸ hconfig, ht.tape_wf hwf, ht.tape_within hwithin, ht.ip_le hfit,
    ht.stack_within hc hstack, ht.flags_legal hflags⟩

end Step

/-- Settles O20: what a step does not touch stays as it was, and a completed instruction, which lies in
the tape, keeps each part of the invariant. -/
theorem everyStepKeepsTheInvariant : Obligations.EveryStepKeepsTheInvariant := by
  intro s t hs hstep
  obtain hun | ⟨i, hf, hc, ht⟩ := step_next_completes hstep
  · exact hun.inv hs
  · exact ht.inv hc (fetch_instr_fits hf) hs

/-- Settles O14: an untouched IP is not `C`, and a target of control lies below `C`. -/
theorem capacityReachedOnlyByFallingThrough : Obligations.CapacityReachedOnlyByFallingThrough := by
  intro s t hstep hs ht
  obtain hun | ⟨i, hf, -, hcomp⟩ := step_next_completes hstep
  · exact absurd (hun.ip ▸ ht) hs
  · obtain ⟨⟨hcall, hret, hcond⟩, hip⟩ | hip := hcomp.ip
    · exact ⟨i, hf, hip ▸ ht, hcall, hret, hcond⟩
    · omega

/-! ### Ended runs -/

theorem Move.status_of_ended {s t : State} (h : Move s t) (hs : s.Ended) : t.status = s.status := by
  cases h with
  | step _ hstep => exact absurd (step_next hstep).1 hs
  | answerNumber => rfl
  | answerText => rfl

/-- Settles O15: by induction on the moves, of which an ended state allows only the host's answers. -/
theorem endedStatesAreFinal : Obligations.EndedStatesAreFinal := by
  refine ⟨fun s t h => (step_next h).1, fun s t hs hmoves => ?_⟩
  induction hmoves with
  | refl => rfl
  | tail t u _ hmove ih =>
    exact (hmove.status_of_ended (fun h => hs (ih ▸ h))).trans ih

/-! ### The load -/

theorem load_of_fits {c : Config} {image : List Byte} (h : image.length ≤ c.tapeCapacity) :
    load c image = .loaded { State.reset with config := c, tape := Memory.writeRun [] 0 image } :=
  if_pos h

theorem load_of_long {c : Config} {image : List Byte} (h : c.tapeCapacity < image.length) :
    load c image = .capacityError := if_neg (Nat.not_le_of_lt h)

theorem load_loaded {c : Config} {image : List Byte} {s : State} (h : load c image = .loaded s) :
    image.length ≤ c.tapeCapacity ∧
      s = { State.reset with config := c, tape := Memory.writeRun [] 0 image } := by
  by_cases hfit : image.length ≤ c.tapeCapacity
  · rw [load_of_fits hfit] at h
    exact ⟨hfit, (LoadResult.loaded.inj h).symm⟩
  · rw [load_of_long (Nat.lt_of_not_le hfit)] at h
    exact nomatch h

/-- The image from address 0, zeros after it (R37, R230). -/
theorem Memory.get_image (image : List Byte) (a : Nat) :
    Memory.get (Memory.writeRun [] 0 image) a = image.getD a 0 := by
  by_cases ha : a < image.length
  · have := Memory.get_writeRun_of_inside Memory.wf_nil (a := 0) ha
    simpa [ha] using this
  · rw [Memory.get_writeRun_of_outside Memory.wf_nil (by omega)]
    simp [ha]

/-- Settles O18, by the two cases of the load: the image fits, or it is too long. -/
theorem loadSetsTheResetValues : Obligations.LoadSetsTheResetValues := by
  refine ⟨fun c image hfit => ?_, fun c image hlong => ?_⟩
  · exact ⟨_, load_of_fits hfit, rfl, Memory.get_image image, rfl, rfl, rfl, rfl⟩
  · rw [load_of_long hlong]
    exact ⟨rfl, rfl⟩

theorem inv_of_load {c : Config} {image : List Byte} {s : State} (hc : c.wf)
    (h : load c image = .loaded s) : s.Inv := by
  obtain ⟨hfit, rfl⟩ := load_loaded h
  exact ⟨hc, Memory.writeRun_wf Memory.wf_nil 0 image,
    Memory.writeRun_within (by simp) (by simpa using hfit), Nat.zero_le _, fun n _ => Nat.zero_le n, rfl⟩

theorem Config.default_wf : Config.default.wf := by decide

/-- Settles O19: a loaded tape is an image written into the empty one. -/
theorem resetMeetsTheInvariant : Obligations.ResetMeetsTheInvariant :=
  have hload : load Config.default [] = .loaded State.reset := load_of_fits (Nat.zero_le _)
  ⟨hload, inv_of_load Config.default_wf hload, fun _ _ _ hc h => inv_of_load hc h⟩

/-- An answer of the host touches no part of the invariant; a step keeps it. -/
theorem Move.inv {s t : State} (h : Move s t) (hs : s.Inv) : t.Inv := by
  cases h with
  | step _ hstep => exact everyStepKeepsTheInvariant s t hs hstep
  | answerNumber => exact hs
  | answerText => exact hs

/-- Settles O21, by induction over the run: a load meets the invariant and a move keeps it. -/
theorem reachableStatesMeetTheInvariant : Obligations.ReachableStatesMeetTheInvariant := fun _ hreach =>
  hreach.rec_on_moves (fun _ _ _ hc h => inv_of_load hc h) fun _ _ hs hmove => hmove.inv hs

/-! ### The operand checks -/

section Checks

variable {s t : State} {i : Instr}

theorem exec_of_short (h : s.stack.length < i.mnemonic.pops) :
    exec i s = raise .stackUnderflowError s := by
  have ha := exec_answer i s
  generalize exec i s = r at ha ⊢
  cases ha with
  | underflow => rfl
  | overflow hd => omega
  | fault _ _ hc | wait hc | complete _ hc => exact absurd hc.1 (by omega)

theorem exec_of_full (hd : i.mnemonic.pops ≤ s.stack.length)
    (hp : i.mnemonic.pops < i.mnemonic.pushes) (hr : ¬ s.HasRoom) :
    exec i s = raise .stackOverflowError s := by
  have ha := exec_answer i s
  generalize exec i s = r at ha ⊢
  cases ha with
  | underflow => omega
  | overflow => rfl
  | fault _ _ hc | wait hc | complete _ hc => exact absurd (hc.2 hp) hr

/-- Which checks a fault `k` of `i` says have failed, the stack being as it was. -/
theorem checks_of_faulted (hr : s.status = .running) (h : exec i s = .next t) {k : FaultKind}
    (hk : t.status = .faulted k) : t.stack = s.stack ∧
    (k = .stackUnderflowError → s.stack.length < i.mnemonic.pops) ∧
    (k = .stackOverflowError → i.mnemonic.pops ≤ s.stack.length ∧
      i.mnemonic.pops < i.mnemonic.pushes ∧ ¬ s.HasRoom) := by
  cases answer_of_exec h with
  | underflow hd =>
    obtain rfl : .stackUnderflowError = k := by simpa using hk
    exact ⟨rfl, fun _ => hd, nofun⟩
  | overflow hd hp hfull =>
    obtain rfl : .stackOverflowError = k := by simpa using hk
    exact ⟨rfl, nofun, fun _ => ⟨hd, hp, hfull⟩⟩
  | fault k' b _ hb hk' =>
    obtain rfl : k' = k := by simpa using hk
    exact ⟨(hb.untouched k').stack, fun e => absurd e hk'.1, fun e => absurd e hk'.2⟩
  | wait => simp [hr] at hk
  | complete _ _ ht =>
    obtain hs | ⟨c, hs⟩ := ht.status
    · simp [hs, hr] at hk
    · simp [hs] at hk

/-- With no room the stack has a capacity, and one word more would exceed it (R25). -/
theorem not_hasRoom_iff :
    ¬ s.HasRoom ↔ ∃ n, s.config.stackCapacity = some n ∧ n < s.stack.length + 1 := by
  simp [State.HasRoom]

end Checks

/-- Settles O25: the depth is checked before anything else, and no other fault is `StackUnderflowError`. -/
theorem underflowExactlyWhenTooFewOperands : Obligations.UnderflowExactlyWhenTooFewOperands := by
  intro i s hr
  refine ⟨⟨fun h => ?_, exec_of_short⟩, fun t h hk => (checks_of_faulted hr h hk).1⟩
  obtain ⟨-, hshort, -⟩ := checks_of_faulted hr h rfl
  exact hshort rfl

/-- Settles O26: a step keeps the bound, and the room asked for is the one word that an instruction
pushes beyond those it pops. -/
theorem overflowExactlyWhenNoRoom : Obligations.OverflowExactlyWhenNoRoom := by
  refine ⟨fun s t n hn hs hstep => ?_, fun i s hr => ?_⟩
  · obtain hun | ⟨i, -, hc, ht⟩ := step_next_completes hstep
    · exact hun.stack ▸ hs
    · refine ht.stack_within hc (fun m hm => ?_) n (ht.config ▸ hn)
      obtain rfl : n = m := Option.some.inj (hn.symm.trans hm)
      exact hs
  · have hroom (hp : i.mnemonic.pops < i.mnemonic.pushes) : ¬ s.HasRoom ↔
        ∃ n, s.config.stackCapacity = some n ∧
          n < s.stack.length + (i.mnemonic.pushes - i.mnemonic.pops) := by
      have hpush := i.mnemonic.pushes_le_pops_add_one
      rw [not_hasRoom_iff, show i.mnemonic.pushes - i.mnemonic.pops = 1 by omega]
    constructor
    · intro h
      obtain ⟨-, -, hover⟩ := checks_of_faulted hr h rfl
      obtain ⟨hd, hp, hfull⟩ := hover rfl
      exact ⟨hd, hp, (hroom hp).1 hfull⟩
    · rintro ⟨hd, hp, hfull⟩
      exact exec_of_full hd hp ((hroom hp).2 hfull)

/-! ### Who writes and who reads the flags -/

/-- The answer `r'` is `r` but for the flags of the next state. -/
def SameButFlags (r r' : StepResult) : Prop :=
  ∀ t, r = .next t → ∃ t', r' = .next t' ∧ t'.setFlags t.flags = t

section SameButFlags

variable {s t t' : State} {f : Flags}

@[simp] theorem State.setFlags_target (w : Word) : (s.setFlags f).target w = s.target w := rfl
@[simp] theorem State.setFlags_readWord (a : Int) : (s.setFlags f).readWord a = s.readWord a := rfl
@[simp] theorem State.setFlags_writeWord (a : Int) (v : Word) :
    (s.setFlags f).writeWord a v = s.writeWord a v := rfl
@[simp] theorem State.setFlags_memRead (a : Int) (n : Nat) :
    (s.setFlags f).memRead a n = s.memRead a n := rfl
@[simp] theorem State.setFlags_memWrite (a : Int) (bs : List Byte) :
    (s.setFlags f).memWrite a bs = s.memWrite a bs := rfl

theorem sameButFlags_next (h : t'.setFlags t.flags = t) : SameButFlags (.next t) (.next t') := by
  rintro _ ⟨⟩
  exact ⟨t', rfl, h⟩

theorem sameButFlags_raise (k : FaultKind) : SameButFlags (raise k s) (raise k (s.setFlags f)) :=
  sameButFlags_next rfl

theorem sameButFlags_needOne {body body' : Word → List Word → StepResult}
    (h : ∀ x rest, SameButFlags (body x rest) (body' x rest)) :
    SameButFlags (needOne s body) (needOne (s.setFlags f) body') := by
  cases hs : s.stack with
  | nil =>
    rw [needOne_of_nil hs, needOne_of_nil (s := s.setFlags f) hs]
    exact sameButFlags_raise _
  | cons x rest =>
    rw [needOne_of_cons hs, needOne_of_cons (s := s.setFlags f) hs]
    exact h x rest

theorem sameButFlags_needTwo {body body' : Word → Word → List Word → StepResult}
    (h : ∀ x y rest, SameButFlags (body x y rest) (body' x y rest)) :
    SameButFlags (needTwo s body) (needTwo (s.setFlags f) body') := by
  by_cases hd : s.stack.length < 2
  · rw [needTwo_of_short hd, needTwo_of_short (s := s.setFlags f) hd]
    exact sameButFlags_raise _
  · obtain ⟨x, y, rest, hs⟩ := exists_two_of_depth (Nat.le_of_not_lt hd)
    rw [needTwo_of_cons hs, needTwo_of_cons (s := s.setFlags f) hs]
    exact h x y rest

theorem sameButFlags_room {body body' : StepResult} (h : SameButFlags body body') :
    SameButFlags (room s body) (room (s.setFlags f) body') := by
  by_cases hr : s.HasRoom
  · rwa [room_of_hasRoom hr, room_of_hasRoom (s := s.setFlags f) hr]
  · rw [room_of_full hr, room_of_full (s := s.setFlags f) hr]
    exact sameButFlags_raise _

theorem sameButFlags_arith (op : ArithOp) : SameButFlags (arith op s) (arith op (s.setFlags f)) := by
  refine sameButFlags_needTwo fun b a rest => ?_
  split
  · exact sameButFlags_raise _
  · exact sameButFlags_next rfl

/-- JMP's condition is true whatever the flags are (R171). -/
theorem sameButFlags_jmp (imm : Word) :
    SameButFlags (execJmp imm s) (execJmp imm (s.setFlags f)) := by
  simp only [execJmp, jump, Flags.condition, if_true, State.setFlags_target]
  cases s.target imm with
  | none => exact sameButFlags_raise _
  | some a => exact sameButFlags_next rfl

theorem sameButFlags_printString :
    SameButFlags (execPrintString s) (execPrintString (s.setFlags f)) := by
  refine sameButFlags_needTwo fun len addr rest => ?_
  split
  · exact sameButFlags_raise _
  · rw [State.setFlags_memRead]
    cases s.memRead addr.toInt len.toInt.toNat with
    | none => exact sameButFlags_raise _
    | some bs => exact sameButFlags_next rfl

theorem sameButFlags_readInt : SameButFlags (execReadInt s) (execReadInt (s.setFlags f)) := by
  refine sameButFlags_room ?_
  rw [State.setFlags_numberInput]
  split
  · exact sameButFlags_next rfl
  · exact sameButFlags_next rfl
  · split
    · exact sameButFlags_next rfl
    · exact sameButFlags_next rfl

theorem sameButFlags_readString : SameButFlags (execReadString s) (execReadString (s.setFlags f)) := by
  refine sameButFlags_needTwo fun bufLen addr rest => ?_
  rw [State.setFlags_textInput]
  cases s.textInput with
  | nil => exact sameButFlags_next rfl
  | cons bs more =>
    by_cases hlen : (bs.length : Int) > bufLen.toInt
    · simp only [if_pos hlen]
      exact sameButFlags_next rfl
    · simp only [if_neg hlen, State.setFlags_memWrite]
      cases s.memWrite addr.toInt bs with
      | none => exact sameButFlags_next rfl
      | some tape => exact sameButFlags_next rfl

/-- No instruction but a conditional jump reads the flags (R28). -/
theorem exec_sameButFlags {i : Instr}
    (hi : i.mnemonic ∉ [.jz, .jnz, .jbz, .jaz, .jl, .jle, .je, .jne, .ja, .jae]) :
    SameButFlags (exec i s) (exec i (s.setFlags f)) := by
  cases i with
  | nop | halt => exact sameButFlags_next rfl
  | push imm | const imm => exact sameButFlags_room (sameButFlags_next rfl)
  | pop | test | printInt => exact sameButFlags_needOne fun _ _ => sameButFlags_next rfl
  | swap | cmp => exact sameButFlags_needTwo fun _ _ _ => sameButFlags_next rfl
  | dup => exact sameButFlags_needOne fun _ _ => sameButFlags_room (sameButFlags_next rfl)
  | add | sub | mul | div | mod => exact sameButFlags_arith _
  | load =>
    refine sameButFlags_needOne fun a rest => ?_
    rw [State.setFlags_readWord]
    cases s.readWord a.toInt with
    | none => exact sameButFlags_raise _
    | some v => exact sameButFlags_next rfl
  | call | ret =>
    refine sameButFlags_needOne fun w rest => ?_
    rw [State.setFlags_target]
    cases s.target w with
    | none => exact sameButFlags_raise _
    | some a => exact sameButFlags_next rfl
  | store =>
    refine sameButFlags_needTwo fun v a rest => ?_
    rw [State.setFlags_writeWord]
    cases s.writeWord a.toInt v with
    | none => exact sameButFlags_raise _
    | some tape => exact sameButFlags_next rfl
  | jmp imm => exact sameButFlags_jmp imm
  | jz imm | jnz imm | jbz imm | jaz imm | jl imm | jle imm | je imm | jne imm | ja imm | jae imm =>
    exact absurd (by simp [Instr.mnemonic]) hi
  | printString => exact sameButFlags_printString
  | readInt => exact sameButFlags_readInt
  | readString => exact sameButFlags_readString

end SameButFlags

/-- Settles O46: CMP resets and writes the relational family alone and TEST the sign-test family alone,
every other instruction leaves the flags as they were, and a second run under other flags differs in
nothing else. -/
theorem flagsWrittenAndReadOnlyByTheirUsers : Obligations.FlagsWrittenAndReadOnlyByTheirUsers := by
  refine ⟨fun i s t h => ?_, fun i s t f hi h => exec_sameButFlags hi t h⟩
  have hflags : t.flags = s.flags ∨ (i = .cmp ∧ ∃ a b, t.flags = s.flags.compare a b) ∨
      (i = .test ∧ ∃ a, t.flags = s.flags.signTest a) :=
    (exec_next h).elim (fun hun => .inl hun.flags) fun hcomp => hcomp.2.flags
  obtain hf | ⟨rfl, a, b, hf⟩ | ⟨rfl, a, hf⟩ := hflags
  · rw [hf]
    exact ⟨fun _ => ⟨rfl, rfl, rfl, rfl⟩, fun _ => ⟨rfl, rfl, rfl, rfl⟩⟩
  · rw [hf]
    exact ⟨fun hne => absurd rfl hne, fun _ => ⟨rfl, rfl, rfl, rfl⟩⟩
  · rw [hf]
    exact ⟨fun _ => ⟨rfl, rfl, rfl, rfl⟩, fun hne => absurd rfl hne⟩

/-! ### The wait for input -/

theorem isWord_toInt (w : Word) : IsWord w.toInt := by
  have hlo := w.le_toInt
  have hhi := w.toInt_lt
  exact ⟨by omega, by omega⟩

theorem toInt_wrap32 {n : Int} (h : IsWord n) : (wrap32 n).toInt = n := by
  rw [wrap32, BitVec.toInt_ofInt]
  obtain ⟨hlo, hhi⟩ := h
  exact Int.bmod_eq_of_le (by omega) (by omega)

theorem wrap32_toInt (w : Word) : wrap32 w.toInt = w := BitVec.ofInt_toInt

theorem toNat_toInt_of_nonneg {w : Word} (h : 0 ≤ w.toInt) : w.toInt.toNat = w.toNat := by
  have := w.toInt_eq_toNat_cond
  split at this
  · omega
  · have := w.isLt
    omega

section Reads

variable {s : State}

theorem readInt_waits (hr : s.HasRoom) (hq : s.numberInput = []) : exec .readInt s = .next s := by
  simp [exec, execReadInt, room_of_hasRoom hr, hq, hold]

theorem readInt_word {w : Word} {more : List NumberAnswer} (hr : s.HasRoom)
    (hq : s.numberInput = .number w.toInt :: more) :
    exec .readInt s = .next (((s.setNumberInput more).setStack (w :: s.stack)).advance .n) := by
  simp only [exec, execReadInt, room_of_hasRoom hr, hq, if_pos (isWord_toInt w), wrap32_toInt]

/-- Malformed input and a number that is no word (R194). -/
theorem readInt_noWord {r : NumberAnswer} {more : List NumberAnswer} (hr : s.HasRoom)
    (hq : s.numberInput = r :: more) (hw : ∀ w : Word, r ≠ .number w.toInt) :
    exec .readInt s = raise .ioFormatError (s.setNumberInput more) := by
  cases r with
  | malformed => simp [exec, execReadInt, room_of_hasRoom hr, hq]
  | number n =>
    have hn : ¬ IsWord n := fun h => hw (wrap32 n) (by rw [toInt_wrap32 h])
    simp [exec, execReadInt, room_of_hasRoom hr, hq, hn]

theorem readString_waits (hd : 2 ≤ s.stack.length) (hq : s.textInput = []) :
    exec .readString s = .next s := by
  obtain ⟨x, y, rest, hs⟩ := exists_two_of_depth hd
  simp [exec, execReadString, needTwo_of_cons hs, hq, hold]

variable {bufLen addr : Word} {rest : List Word} {bs : List Byte} {more : List (List Byte)}

theorem readString_fits (hs : s.stack = bufLen :: addr :: rest) (hq : s.textInput = bs :: more)
    (hlen : bs.length ≤ bufLen.toInt) (hb : s.InBounds addr.toInt bs.length) :
    exec .readString s =
      .next ((((s.setTextInput more).setTape (Memory.writeRun s.tape addr.toInt.toNat bs)).setStack
        (wrap32 bs.length :: rest)).advance .n) := by
  have hw : s.memWrite addr.toInt bs = some (Memory.writeRun s.tape addr.toInt.toNat bs) :=
    memWrite_eq_some.2 ⟨hb, rfl⟩
  simp [exec, execReadString, needTwo_of_cons hs, hq, not_lt.2 hlen, hw]

theorem readString_long (hs : s.stack = bufLen :: addr :: rest) (hq : s.textInput = bs :: more)
    (hlen : bufLen.toInt < bs.length) :
    exec .readString s = .next (((s.setTextInput more).setStack (sentinel :: rest)).advance .n) := by
  simp [exec, execReadString, needTwo_of_cons hs, hq, hlen]

theorem readString_outOfBounds (hs : s.stack = bufLen :: addr :: rest) (hq : s.textInput = bs :: more)
    (hlen : bs.length ≤ bufLen.toInt) (hb : ¬ s.InBounds addr.toInt bs.length) :
    exec .readString s = raise .boundsError (s.setTextInput more) := by
  have hw : s.memWrite addr.toInt bs = none := memWrite_eq_none.2 hb
  simp [exec, execReadString, needTwo_of_cons hs, hq, not_lt.2 hlen, hw]

/-- A running state whose step changes nothing stays for any number of steps. -/
theorem run_of_step_self (h : step s = .next s) (n : Nat) : Host.Core.run core n s = .next s := by
  induction n with
  | zero => rfl
  | succ n ih => exact (run_succ_of_next core h).trans ih

theorem answerNumber_numberInput (hq : s.numberInput = []) (r : NumberAnswer) :
    (s.answerNumber r).numberInput = [r] := by simp [State.answerNumber, hq]

theorem answerText_textInput (hq : s.textInput = []) (bs : List Byte) :
    (s.answerText bs).textInput = [bs] := by simp [State.answerText, hq]

/-- An answer given to a waiting READ and consumed by it leaves no trace in the queue. -/
theorem answerNumber_consumed (hq : s.numberInput = []) (r : NumberAnswer) :
    (s.answerNumber r).setNumberInput [] = s := by
  rw [← hq]
  rfl

theorem answerText_consumed (hq : s.textInput = []) (bs : List Byte) :
    (s.answerText bs).setTextInput [] = s := by
  rw [← hq]
  rfl

end Reads

/-- Settles O53: a READ that waits is a step to the same state, and one answer more in the empty queue
is the one it consumes. -/
theorem readWaitsForTheHost : Obligations.ReadWaitsForTheHost := by
  refine ⟨fun s => readInt_waits, fun s => readString_waits, ?_, ?_, ?_, ?_, ?_, ?_⟩
  · intro s n hr hwait
    refine run_of_step_self ?_ n
    obtain ⟨hf, hroom, hq⟩ | ⟨hf, hd, hq⟩ := hwait
    · rw [step_of_instr hr hf, readInt_waits hroom hq]
    · rw [step_of_instr hr hf, readString_waits hd hq]
  · intro s w hroom hq
    rw [readInt_word (s := s.answerNumber _) hroom (answerNumber_numberInput hq _),
      answerNumber_consumed hq]
    rfl
  · intro s r hroom hq hw
    rw [readInt_noWord (s := s.answerNumber r) hroom (answerNumber_numberInput hq r) hw,
      answerNumber_consumed hq]
    rfl
  · intro s bufLen addr rest bs hwf hs hq hlen hlo hhi
    have hword : IsWord bs.length := ⟨by omega, hlen.trans (isWord_toInt bufLen).2⟩
    refine ⟨Memory.writeRun s.tape addr.toNat bs, wrap32 bs.length, toInt_wrap32 hword, ?_, ?_, ?_⟩
    · rw [readString_fits (s := s.answerText bs) hs (answerText_textInput hq bs) hlen ⟨hlo, hhi⟩,
        answerText_consumed hq, toNat_toInt_of_nonneg hlo]
      rfl
    · intro j hj
      rw [Memory.get_writeRun_of_inside hwf hj, List.getElem?_eq_getElem hj]
    · exact fun x hx => Memory.get_writeRun_of_outside hwf hx
  · intro s bufLen addr rest bs hs hq hlen
    rw [readString_long (s := s.answerText bs) hs (answerText_textInput hq bs) hlen,
      answerText_consumed hq]
    rfl
  · intro s bufLen addr rest bs hs hq hlen hout
    have hb : ¬ s.InBounds addr.toInt bs.length := by
      rintro ⟨hlo, hhi⟩
      omega
    rw [readString_outOfBounds (s := s.answerText bs) hs (answerText_textInput hq bs) hlen hb,
      answerText_consumed hq]
    rfl

end Sys2Proof.Machine
end

section
/-! PROOFS. The statements of spec/20_memory.md: the word codec (R54 to R56), what a STORE leaves for
later loads (R57, R59, R60, R65) and for the fetch (R68, R69), and what every instruction leaves as it
was (R61). -/

namespace Sys2Proof

/-! ### The word codec -/

/-- The little-endian sum of four bytes fits a word, so nothing wraps (R54). -/
theorem decodeWord_toNat (b0 b1 b2 b3 : Byte) : (decodeWord b0 b1 b2 b3).toNat =
    b0.toNat + 256 * b1.toNat + 65536 * b2.toNat + 16777216 * b3.toNat := by
  have h0 := b0.isLt
  have h1 := b1.isLt
  have h2 := b2.isLt
  have h3 := b3.isLt
  rw [decodeWord, BitVec.toNat_ofNat]
  exact Nat.mod_eq_of_lt (by omega)

/-- Settles O5: the sum is the word's unsigned value, and the upper half of these are the negative words. -/
theorem decodeWordIsLittleEndianSigned : Obligations.DecodeWordIsLittleEndianSigned := by
  intro b0 b1 b2 b3 u
  have hu : (decodeWord b0 b1 b2 b3).toNat = u := decodeWord_toNat b0 b1 b2 b3
  rw [BitVec.toInt_eq_toNat_cond, hu]
  split <;> split <;> omega

/-- Settles O6: each byte is a digit of `unsigned32(v)` to base 256, and the fourth is the last. -/
theorem encodeWordIsLittleEndian : Obligations.EncodeWordIsLittleEndian := by
  intro v
  have hv := v.isLt
  have hlast : v.toNat / 16777216 % 256 = v.toNat / 16777216 := Nat.mod_eq_of_lt (by omega)
  simp [encodeWord, Nat.shiftRight_eq_div_pow, hlast]

theorem decodeBytes_encodeWord (v : Word) : decodeBytes (encodeWord v) = some v :=
  congrArg some (decodeWord_encodeWord v)

/-- The digits of the little-endian sum are the bytes it was made of (R56). -/
theorem encodeWord_decodeWord (b0 b1 b2 b3 : Byte) :
    encodeWord (decodeWord b0 b1 b2 b3) = [b0, b1, b2, b3] := by
  refine List.map_injective_iff.2 (fun _ _ => BitVec.eq_of_toNat_eq) ?_
  have h0 := b0.isLt
  have h1 := b1.isLt
  have h2 := b2.isLt
  have h3 := b3.isLt
  rw [encodeWordIsLittleEndian, decodeWord_toNat]
  simp only [List.map_cons, List.map_nil, List.cons.injEq, and_true]
  omega

/-- Settles O7: neither of the two compositions of `Encode` and `Decode` changes anything. -/
theorem wordCodecRoundTrip : Obligations.WordCodecRoundTrip :=
  ⟨decodeBytes_encodeWord, encodeWord_decodeWord⟩

theorem encodeWord_getElem? (v : Word) {j : Nat} (hj : j < 4) :
    (encodeWord v)[j]? = some (v.extractLsb' (8 * j) 8) := by
  match j with
  | 0 | 1 | 2 | 3 => rfl

/-- The bytes 1 to 3 of a word below another byte are the word shifted down, and that byte above it (R59). -/
theorem decodeWord_shifted (v : Word) (b : Byte) :
    decodeWord (v.extractLsb' 8 8) (v.extractLsb' 16 8) (v.extractLsb' 24 8) b =
      v.ushiftRight 8 ||| (b.zeroExtend 32).shiftLeft 24 := by
  have hv := v.isLt
  have hb := b.isLt
  have hlow : (v.ushiftRight 8).toNat = v.toNat / 256 := by simp [Nat.shiftRight_eq_div_pow]
  have hhigh : ((b.zeroExtend 32).shiftLeft 24).toNat = b.toNat <<< 24 := by
    simp only [BitVec.shiftLeft_eq, BitVec.toNat_shiftLeft, BitVec.truncate_eq_setWidth,
      BitVec.toNat_setWidth, Nat.shiftLeft_eq]
    omega
  apply BitVec.eq_of_toNat_eq
  rw [decodeWord_toNat, BitVec.toNat_or, hlow, hhigh, Nat.or_comm,
    ← Nat.shiftLeft_add_eq_or_of_lt (by omega), Nat.shiftLeft_eq]
  simp only [BitVec.extractLsb'_toNat, Nat.shiftRight_eq_div_pow]
  omega

/-! ### Encodings on the tape -/

@[simp] theorem encode_length (m : OpcodeMap) (i : Instr) : (encode m i).length = i.length := by
  cases i <;> rfl

/-- Both formats have at least the opcode byte and at most four bytes more (R80). -/
theorem Format.length_bounds (f : Format) : 0 < f.length ∧ f.length ≤ Format.i.length := by
  cases f <;> decide

end Sys2Proof

namespace Sys2Proof.Machine

/-- A byte after a run was written: one of the run's, or the one that was there. -/
theorem Memory.get_writeRun {m : Memory} (h : Memory.wf m) (a : Nat) (bs : List Byte) (x : Nat) :
    some (Memory.get (Memory.writeRun m a bs) x) =
      if a ≤ x ∧ x < a + bs.length then bs[x - a]? else some (Memory.get m x) := by
  split
  · next hx =>
    obtain ⟨j, rfl⟩ := Nat.exists_eq_add_of_le hx.1
    have hj : j < bs.length := by omega
    rw [Memory.get_writeRun_of_inside h hj, Nat.add_sub_cancel_left, List.getElem?_eq_getElem hj]
  · next hx => rw [Memory.get_writeRun_of_outside h (by omega)]

/-! ### Words stored and loaded -/

section Store

variable {s : State} {v a : Word} {rest : List Word}

/-- STORE with its address in bounds (R121). -/
theorem store_inBounds (hs : s.stack = v :: a :: rest) (hb : s.InBounds a.toInt 4) :
    exec .store s = .next (((s.setTape (Memory.writeRun s.tape a.toInt.toNat (encodeWord v))).setStack
      rest).advance .n) := by
  simp [exec, execStore, needTwo_of_cons hs, writeWord_eq_some.2 ⟨hb, rfl⟩]

/-- LOAD of a word that can be read (R120). -/
theorem load_of_readWord (hs : s.stack = a :: rest) (hv : s.readWord a.toInt = some v) :
    exec .load s = .next { s with stack := v :: rest, ip := s.ip + 1 } := by
  simp only [exec, execLoad, needOne_of_cons hs, hv]
  rfl

/-- The word read where a word was written is that word (R57, R65). -/
theorem readWord_of_written {m : Memory} (hm : Memory.wf m) {x : Int}
    (ht : s.tape = Memory.writeRun m x.toNat (encodeWord v)) (hb : s.InBounds x 4) :
    s.readWord x = some v := by
  have hrun : Memory.readRun s.tape x.toNat 4 = encodeWord v := by
    rw [ht]
    exact Memory.readRun_writeRun hm x.toNat (encodeWord v)
  rw [State.readWord, memRead_eq_some.2 ⟨hb, hrun.symm⟩]
  exact decodeBytes_encodeWord v

/-- The word read one byte above a written one (R59, R60). -/
theorem readWord_above_written {m : Memory} (hm : Memory.wf m) {x : Nat}
    (ht : s.tape = Memory.writeRun m x (encodeWord v)) (hb : s.InBounds (x + 1 : Nat) 4) :
    s.readWord (x + 1 : Nat) =
      some (v.ushiftRight 8 ||| ((Memory.get m (x + 4)).zeroExtend 32).shiftLeft 24) := by
  have hin (j : Nat) (hj : j < 4) : Memory.get s.tape (x + j) = v.extractLsb' (8 * j) 8 := by
    have hget := Memory.get_writeRun hm x (encodeWord v) (x + j)
    rw [if_pos ⟨by omega, Nat.add_lt_add_left hj x⟩, Nat.add_sub_cancel_left,
      encodeWord_getElem? v hj] at hget
    exact ht ▸ Option.some.inj hget
  have hout : Memory.get s.tape (x + 4) = Memory.get m (x + 4) :=
    ht ▸ Memory.get_writeRun_of_outside hm (.inr (Nat.le_refl _))
  rw [readWord_of_inBounds hb, Int.toNat_natCast, hin 1 (by decide), hin 2 (by decide),
    hin 3 (by decide), hout, decodeWord_shifted]

end Store

/-- Settles O34: the four bytes read back are the value's encoding, and the codec gives the value back. -/
theorem storeThenLoadGivesTheValue : Obligations.StoreThenLoadGivesTheValue := by
  intro s v a rest hwf hs hlo hhi
  refine ⟨_, store_inBounds hs ⟨hlo, hhi⟩, fun u htape hconfig below hu => ?_⟩
  have hb : u.InBounds a.toInt 4 := ⟨hlo, by rw [hconfig]; exact hhi⟩
  exact load_of_readWord hu (readWord_of_written hwf htape hb)

/-- Settles O35: three bytes of the load are the STORE's and the fourth is the one above them. -/
theorem overlappingLoadAfterStore : Obligations.OverlappingLoadAfterStore := by
  intro s v a rest hwf hs hlo hhi
  refine ⟨_, store_inBounds hs ⟨hlo, by omega⟩, fun u a' below htape hconfig hu ha' => ?_⟩
  have hx : a.toInt.toNat = a.toNat := toNat_toInt_of_nonneg hlo
  have hnext : a'.toInt = (a.toNat + 1 : Nat) := by omega
  have hb : u.InBounds (a.toNat + 1 : Nat) 4 := by
    refine ⟨Int.natCast_nonneg _, ?_⟩
    rw [hconfig]
    simp only [State.advance_config, State.setStack_config, State.setTape_config]
    omega
  refine ⟨_, load_of_readWord hu ?_, rfl⟩
  rw [hnext]
  exact readWord_above_written hwf (hx ▸ htape) hb

/-! ### Code written by the running program -/

section Code

variable {u : State} {i : Instr}

/-- The fetch answers the instruction whose encoding stands at IP (R88 to R90): the window it reads is
that encoding and whatever follows. -/
theorem fetch_of_encoding (hm : u.config.opcodeMap.wf)
    (hfit : u.ip + i.length ≤ u.config.tapeCapacity)
    (hrun : Memory.readRun u.tape u.ip i.length = encode u.config.opcodeMap i) :
    fetch u = .instr i := by
  obtain ⟨hpos, hlongest⟩ : 0 < i.length ∧ i.length ≤ Format.i.length := i.mnemonic.format.length_bounds
  obtain ⟨k, hk⟩ : ∃ k, min Format.i.length (u.config.tapeCapacity - u.ip) = i.length + k :=
    Nat.exists_eq_add_of_le (le_min hlongest (by omega))
  have hwindow : u.window = encode u.config.opcodeMap i ++ Memory.readRun u.tape (u.ip + i.length) k := by
    rw [State.window, hk, Memory.readRun_add, hrun]
  exact fetch_instr.2 ⟨by omega, _, hwindow ▸ decodeOfEncodeIsTheInstruction _ i _ hm⟩

/-- An instruction spelled by a written run and the bytes around it is the one that a step on that tape
runs (R68, R69). -/
theorem step_of_written {m : Memory} (hwf : Memory.wf m) {a : Nat} {bs : List Byte}
    (ht : u.tape = Memory.writeRun m a bs) {c : Config} (hc : u.config = c) (hm : c.opcodeMap.wf)
    (hr : u.status = .running) (hfit : u.ip + i.length ≤ c.tapeCapacity)
    (hbytes : ∀ j < i.length, (encode c.opcodeMap i)[j]? =
      if a ≤ u.ip + j ∧ u.ip + j < a + bs.length then bs[u.ip + j - a]?
      else some (Memory.get m (u.ip + j))) :
    step u = exec i u := by
  subst hc
  refine step_of_instr hr (fetch_of_encoding hm hfit ?_)
  refine List.ext_getElem (by simp) fun j hj₁ hj₂ => ?_
  have hj : j < i.length := by simpa using hj₁
  have hbyte := hbytes j hj
  rw [← Memory.get_writeRun hwf, ← ht, List.getElem?_eq_getElem hj₂] at hbyte
  rw [Memory.readRun_getElem, Option.some.inj hbyte]

end Code

/-- Settles O36: STORE and READ_STRING each write one run of bytes, and a fetch reads what the tape holds. -/
theorem storedInstructionRunsNext : Obligations.StoredInstructionRunsNext := by
  constructor
  · intro s v a rest hm hwf hr hf hs hlo hhi
    refine ⟨_, (step_of_instr hr hf).trans (store_inBounds hs ⟨hlo, hhi⟩), rfl, hr, rfl, ?_⟩
    intro u i hconfig htape hu hfit hbytes
    rw [toNat_toInt_of_nonneg hlo] at htape
    refine step_of_written hwf htape hconfig hm hu hfit fun j hj => ?_
    refine (hbytes j hj).trans ?_
    rw [encodeWord_length]
    split
    · next hx => rw [encodeWord_getElem? v (by omega)]
    · rfl
  · intro s bufLen addr rest bs more hm hwf hr hf hs hq hlen hlo hhi
    refine ⟨_, (step_of_instr hr hf).trans (readString_fits hs hq hlen ⟨hlo, hhi⟩), rfl, hr, rfl, ?_⟩
    intro u i hconfig htape hu hfit hbytes
    rw [toNat_toInt_of_nonneg hlo] at htape
    exact step_of_written hwf htape hconfig hm hu hfit hbytes

/-! ### What every instruction leaves as it was -/

/-- The part of the state that `i` may not touch is the same in `s` and in `t` (R61, R190). -/
structure Framed (i : Instr) (s t : State) : Prop where
  config : t.config = s.config
  tape : i ≠ .store → i ≠ .readString → t.tape = s.tape
  output : i ≠ .printInt → i ≠ .printString → t.output = s.output
  numberInput : i ≠ .readInt → t.numberInput = s.numberInput
  textInput : i ≠ .readString → t.textInput = s.textInput
  status : t.status = s.status ∨ (∃ k, t.status = .faulted k) ∨ i = .halt

/-- Every next state that `i` answers with in `s` keeps the frame of `i`. -/
def Frames (i : Instr) (s : State) (r : StepResult) : Prop := ∀ t, r = .next t → Framed i s t

section Frames

variable {i : Instr} {s t b : State}

theorem frames_next (h : Framed i s t) : Frames i s (.next t) := by
  rintro _ ⟨⟩
  exact h

/-- An answer that differs from `s` in `IP`, the stack and the flags alone. -/
theorem frames_registers (h : { s with ip := t.ip, stack := t.stack, flags := t.flags } = t) :
    Frames i s (.next t) := by
  refine frames_next ⟨?_, fun _ _ => ?_, fun _ _ => ?_, fun _ => ?_, fun _ => ?_, .inl ?_⟩ <;> rw [← h]

/-- A fault changes the status and the input that its instruction consumed (R13). -/
theorem frames_raise (k : FaultKind) (hb : FaultBase s i b) : Frames i s (raise k b) := by
  refine frames_next ?_
  cases hb with
  | unchanged =>
    exact ⟨rfl, fun _ _ => rfl, fun _ _ => rfl, fun _ => rfl, fun _ => rfl, .inr (.inl ⟨k, rfl⟩)⟩
  | number =>
    exact ⟨rfl, fun _ _ => rfl, fun _ _ => rfl, fun h => absurd rfl h, fun _ => rfl,
      .inr (.inl ⟨k, rfl⟩)⟩
  | text =>
    exact ⟨rfl, fun _ _ => rfl, fun _ _ => rfl, fun _ => rfl, fun h => absurd rfl h,
      .inr (.inl ⟨k, rfl⟩)⟩

theorem frames_needOne {body : Word → List Word → StepResult}
    (h : ∀ x rest, Frames i s (body x rest)) : Frames i s (needOne s body) := by
  intro t ht
  obtain ⟨-, rfl⟩ | ⟨x, rest, -, hbody⟩ := needOne_next ht
  · exact frames_raise _ (.unchanged i) _ rfl
  · exact h x rest t hbody

theorem frames_needTwo {body : Word → Word → List Word → StepResult}
    (h : ∀ x y rest, Frames i s (body x y rest)) : Frames i s (needTwo s body) := by
  intro t ht
  obtain ⟨-, rfl⟩ | ⟨x, y, rest, -, hbody⟩ := needTwo_next ht
  · exact frames_raise _ (.unchanged i) _ rfl
  · exact h x y rest t hbody

theorem frames_room {body : StepResult} (h : Frames i s body) : Frames i s (room s body) := by
  intro t ht
  obtain ⟨-, rfl⟩ | ⟨-, hbody⟩ := room_next ht
  · exact frames_raise _ (.unchanged i) _ rfl
  · exact h t hbody

theorem frames_arith (op : ArithOp) : Frames i s (arith op s) := by
  refine frames_needTwo fun b a rest => ?_
  split
  · exact frames_raise _ (.unchanged i)
  · exact frames_registers rfl

theorem frames_jump (k : Mnemonic) (imm : Word) : Frames i s (jump k imm s) := by
  intro t ht
  obtain ⟨-, rfl⟩ | ⟨-, -, rfl⟩ | ⟨a, -, -, rfl⟩ := jump_next ht
  · exact frames_registers rfl _ rfl
  · exact frames_raise _ (.unchanged i) _ rfl
  · exact frames_registers rfl _ rfl

theorem frames_store : Frames .store s (execStore s) := by
  refine frames_needTwo fun v a rest => ?_
  split
  · exact frames_raise _ (.unchanged _)
  · exact frames_next ⟨rfl, fun h => absurd rfl h, fun _ _ => rfl, fun _ => rfl, fun _ => rfl, .inl rfl⟩

theorem frames_printInt : Frames .printInt s (execPrintInt s) :=
  frames_needOne fun _ _ => frames_next
    ⟨rfl, fun _ _ => rfl, fun h => absurd rfl h, fun _ => rfl, fun _ => rfl, .inl rfl⟩

theorem frames_printString : Frames .printString s (execPrintString s) := by
  refine frames_needTwo fun len addr rest => ?_
  split
  · exact frames_raise _ (.unchanged _)
  · split
    · exact frames_raise _ (.unchanged _)
    · exact frames_next
        ⟨rfl, fun _ _ => rfl, fun _ h => absurd rfl h, fun _ => rfl, fun _ => rfl, .inl rfl⟩

theorem frames_readInt : Frames .readInt s (execReadInt s) := by
  refine frames_room ?_
  split
  · exact frames_registers rfl
  · next more hq => exact frames_raise _ (.number _ more hq)
  · next n more hq =>
    split
    · exact frames_next
        ⟨rfl, fun _ _ => rfl, fun _ _ => rfl, fun h => absurd rfl h, fun _ => rfl, .inl rfl⟩
    · exact frames_raise _ (.number _ more hq)

theorem frames_readString : Frames .readString s (execReadString s) := by
  refine frames_needTwo fun bufLen addr rest => ?_
  split
  · exact frames_registers rfl
  · next bs more hq =>
    split
    · exact frames_next
        ⟨rfl, fun _ _ => rfl, fun _ _ => rfl, fun _ => rfl, fun h => absurd rfl h, .inl rfl⟩
    · split
      · exact frames_raise _ (.text bs more hq)
      · exact frames_next
          ⟨rfl, fun _ h => absurd rfl h, fun _ _ => rfl, fun _ => rfl, fun h => absurd rfl h, .inl rfl⟩

/-- Each shared operation keeps the frame of every instruction, and an instruction that touches more
than stack, flags and `IP` is one its own frame excepts. -/
theorem exec_frames : Frames i s (exec i s) := by
  cases i with
  | nop => exact frames_registers rfl
  | push imm | const imm => exact frames_room (frames_registers rfl)
  | pop | test => exact frames_needOne fun _ _ => frames_registers rfl
  | swap | cmp => exact frames_needTwo fun _ _ _ => frames_registers rfl
  | dup => exact frames_needOne fun _ _ => frames_room (frames_registers rfl)
  | add | sub | mul | div | mod => exact frames_arith _
  | load | call | ret =>
    refine frames_needOne fun x rest => ?_
    split
    · exact frames_raise _ (.unchanged _)
    · exact frames_registers rfl
  | jmp imm => exact frames_jump .jmp imm
  | jz imm | jnz imm | jbz imm | jaz imm | jl imm | jle imm | je imm | jne imm | ja imm | jae imm =>
    exact frames_jump _ imm
  | store => exact frames_store
  | printInt => exact frames_printInt
  | printString => exact frames_printString
  | readInt => exact frames_readInt
  | readString => exact frames_readString
  | halt =>
    exact frames_next
      ⟨rfl, fun _ _ => rfl, fun _ _ => rfl, fun _ => rfl, fun _ => rfl, .inr (.inr rfl)⟩

end Frames

/-- Settles O56: the tape's data is the same, so every byte of it is. -/
theorem frameOfEveryInstruction : Obligations.FrameOfEveryInstruction := by
  intro i s t h
  obtain ⟨hconfig, htape, houtput, hnumber, htext, hstatus⟩ := exec_frames t h
  exact ⟨hconfig, fun hs hr a => by rw [htape hs hr], houtput, hnumber, htext, hstatus⟩

end Sys2Proof.Machine
end

section
/-! PROOFS. The statements of spec/30_encoding.md: the decoder (R80 to R86), the fetch and its answers
(R88, R89), the step around `exec` (R90, R92), where an instruction ends (R91), and how deep it reaches
into the stack (R84). -/

namespace Sys2Proof

/-! ### The decoder -/

theorem OpcodeMap.byteOf_inj {m : OpcodeMap} (hm : m.wf) {k k' : Mnemonic}
    (h : m.byteOf k = m.byteOf k') : k = k' :=
  List.inj_on_of_nodup_map hm k.mem_all k'.mem_all h

/-- The default map gives the bytes from 0 on to the mnemonics, in the order of the table (R84). -/
theorem defaultOpcodeMap_bytes :
    Mnemonic.all.map defaultOpcodeMap.byteOf = (List.range 0x21).map (BitVec.ofNat 8) := by
  decide

/-- Under the default map the illegal bytes are those past the table (R85). -/
theorem defaultOpcodeMap_lookup_eq_none (b : Byte) :
    defaultOpcodeMap.lookup b = none ↔ 0x21 ≤ b.toNat := by
  have hmem : (∃ k, defaultOpcodeMap.byteOf k = b) ↔ b ∈ Mnemonic.all.map defaultOpcodeMap.byteOf := by
    simp [Mnemonic.mem_all]
  have hbyte : b ∈ (List.range 0x21).map (BitVec.ofNat 8) ↔ b.toNat < 0x21 := by
    rw [List.mem_map]
    constructor
    · rintro ⟨n, hn, rfl⟩
      exact (Nat.mod_le n _).trans_lt (List.mem_range.1 hn)
    · exact fun hb => ⟨b.toNat, List.mem_range.2 hb, by simp⟩
  rw [OpcodeMap.lookup_eq_none, ← not_exists, hmem, defaultOpcodeMap_bytes, hbyte, Nat.not_lt]

/-- An immediate is given to the instructions of format `I` alone (R80). -/
theorem Mnemonic.immediate_instr (k : Mnemonic) (imm : Word) :
    (k.instr imm).immediate = if k.format = .i then some imm else none := by
  cases k <;> rfl

theorem encode_instr_formatN (m : OpcodeMap) {k : Mnemonic} (hk : k.format = .n) (imm : Word) :
    encode m (k.instr imm) = [m.byteOf k] := by
  simp [encode, Mnemonic.immediate_instr, hk]

theorem encode_instr_formatI (m : OpcodeMap) {k : Mnemonic} (hk : k.format = .i) (imm : Word) :
    encode m (k.instr imm) = m.byteOf k :: encodeWord imm := by
  simp [encode, Mnemonic.immediate_instr, hk]

/-- What the decoder can answer on the byte `op` and the bytes `rest` after it (R81, R82, R85, R89). -/
inductive DecodesTo (m : OpcodeMap) (op : Byte) (rest : List Byte) : Decoded → Prop where
  | unknown (h : ∀ k : Mnemonic, m.byteOf k ≠ op) : DecodesTo m op rest (.unknownOpcode op)
  | formatN (k : Mnemonic) (hop : m.byteOf k = op) (hk : k.format = .n) :
      DecodesTo m op rest (.instr (k.instr 0) rest)
  | formatI (k : Mnemonic) (hop : m.byteOf k = op) (hk : k.format = .i) (b0 b1 b2 b3 : Byte)
      (rest' : List Byte) (hrest : rest = b0 :: b1 :: b2 :: b3 :: rest') :
      DecodesTo m op rest (.instr (k.instr (decodeWord b0 b1 b2 b3)) rest')
  | truncated (k : Mnemonic) (hop : m.byteOf k = op) (hk : k.format = .i) (hrest : rest.length < 4) :
      DecodesTo m op rest .truncated

/-- The opcode byte decides the format, and the format what is read after it (R86). -/
theorem decode_cons (m : OpcodeMap) (op : Byte) (rest : List Byte) :
    DecodesTo m op rest (decode m (op :: rest)) := by
  rw [decode]
  split
  · next hl => exact .unknown (OpcodeMap.lookup_eq_none.1 hl)
  · next e hl =>
    obtain ⟨k, rfl, hop⟩ := OpcodeMap.lookup_eq_some hl
    split
    · next hk => exact .formatN k hop hk
    · next hk =>
      match rest with
      | b0 :: b1 :: b2 :: b3 :: rest' => exact .formatI k hop hk b0 b1 b2 b3 rest' rfl
      | [] | [_] | [_, _] | [_, _, _] => exact .truncated k hop hk (by simp)

/-- Settles O3, by the two formats in which the decoder answers an instruction: the opcode byte is the
mnemonic's, and the codec gives the four bytes of the immediate back. -/
theorem decodedBytesAreTheEncoding : Obligations.DecodedBytesAreTheEncoding := by
  intro m bs i rest h
  match bs with
  | [] => exact nomatch h
  | op :: tail =>
    have hd := decode_cons m op tail
    rw [h] at hd
    cases hd with
    | formatN k hop hk =>
      rw [encode_instr_formatN m hk, hop]
      rfl
    | formatI k hop hk b0 b1 b2 b3 _ hrest =>
      rw [encode_instr_formatI m hk, encodeWord_decodeWord, hop, hrest]
      rfl

/-- Settles O1, by running the decoder on each word. -/
theorem wordsOfTheTableDecode : Obligations.WordsOfTheTableDecode := by
  unfold Obligations.WordsOfTheTableDecode
  decide

end Sys2Proof

namespace Sys2Proof.Machine

/-! ### The fetch -/

section Fetch

variable {s : State}

theorem window_of_ip_lt (h : s.ip < s.config.tapeCapacity) :
    s.window = Memory.get s.tape s.ip ::
      Memory.readRun s.tape (s.ip + 1) (min 4 (s.config.tapeCapacity - (s.ip + 1))) := by
  have hlen : min Format.i.length (s.config.tapeCapacity - s.ip) =
      min 4 (s.config.tapeCapacity - (s.ip + 1)) + 1 := by
    rw [format_length_i]
    omega
  rw [State.window, hlen, Memory.readRun]

/-- What the fetch can answer with `IP` in the tape, in the order of R90: by the opcode byte at `IP` and,
in format `I`, by whether the four bytes after it are in the tape. -/
inductive FetchesTo (s : State) : Fetched → Prop where
  | unknown (h : ∀ k : Mnemonic, s.config.opcodeMap.byteOf k ≠ Memory.get s.tape s.ip) :
      FetchesTo s (.raises .unknownOpcodeError)
  | formatN (k : Mnemonic) (hop : s.config.opcodeMap.byteOf k = Memory.get s.tape s.ip)
      (hk : k.format = .n) : FetchesTo s (.instr (k.instr 0))
  | formatI (k : Mnemonic) (hop : s.config.opcodeMap.byteOf k = Memory.get s.tape s.ip)
      (hk : k.format = .i) (hfit : s.ip + 5 ≤ s.config.tapeCapacity) :
      FetchesTo s (.instr (k.instr (decodeWord (Memory.get s.tape (s.ip + 1))
        (Memory.get s.tape (s.ip + 2)) (Memory.get s.tape (s.ip + 3)) (Memory.get s.tape (s.ip + 4)))))
  | truncated (k : Mnemonic) (hop : s.config.opcodeMap.byteOf k = Memory.get s.tape s.ip)
      (hk : k.format = .i) (hshort : s.config.tapeCapacity < s.ip + 5) :
      FetchesTo s (.raises .boundsError)

/-- With `IP` in the tape the fetch answers what the decoder does on the bytes from `IP` on (R88, R89). -/
theorem fetch_of_ip_lt (h : s.ip < s.config.tapeCapacity) : FetchesTo s (fetch s) := by
  have hd := decode_cons s.config.opcodeMap (Memory.get s.tape s.ip)
    (Memory.readRun s.tape (s.ip + 1) (min 4 (s.config.tapeCapacity - (s.ip + 1))))
  rw [← window_of_ip_lt h] at hd
  rw [fetch, if_neg h.ne, if_neg h.not_gt]
  generalize decode s.config.opcodeMap s.window = d at hd
  cases hd with
  | unknown hno => exact .unknown hno
  | formatN k hop hk => exact .formatN k hop hk
  | formatI k hop hk b0 b1 b2 b3 rest' hrest =>
    have hlen : min 4 (s.config.tapeCapacity - (s.ip + 1)) = rest'.length + 4 := by
      simpa using congrArg List.length hrest
    have hfit : s.ip + 5 ≤ s.config.tapeCapacity := by omega
    rw [show min 4 (s.config.tapeCapacity - (s.ip + 1)) = 4 by omega] at hrest
    obtain ⟨rfl, rfl, rfl, rfl, -⟩ : Memory.get s.tape (s.ip + 1) = b0 ∧
      Memory.get s.tape (s.ip + 2) = b1 ∧ Memory.get s.tape (s.ip + 3) = b2 ∧
      Memory.get s.tape (s.ip + 4) = b3 ∧ [] = rest' := by
      simpa [Memory.readRun] using hrest
    exact .formatI k hop hk hfit
  | truncated k hop hk hrest =>
    have hlen : min 4 (s.config.tapeCapacity - (s.ip + 1)) < 4 := by simpa using hrest
    exact .truncated k hop hk (by omega)

theorem step_of_raises {k : FaultKind} (hr : s.status = .running) (hf : fetch s = .raises k) :
    step s = .next { s with status := .faulted k } := by
  simp [step, hr, hf, raise, State.setStatus]

theorem step_of_endOfTape (hr : s.status = .running) (hip : s.ip = s.config.tapeCapacity) :
    step s = .next { s with status := .halted .endOfTape } := by
  simp [step, hr, fetch_endOfTape.2 hip, State.setStatus]

theorem fetch_of_capacity_lt (h : s.config.tapeCapacity < s.ip) : fetch s = .raises .boundsError := by
  rw [fetch, if_neg h.ne', if_pos h]

/-- An illegal byte (R85), whatever follows. -/
theorem fetch_unknownOpcode_iff (h : s.ip < s.config.tapeCapacity) :
    fetch s = .raises .unknownOpcodeError ↔
      ∀ k : Mnemonic, s.config.opcodeMap.byteOf k ≠ Memory.get s.tape s.ip := by
  have hf := fetch_of_ip_lt h
  generalize fetch s = f at hf
  cases hf with
  | unknown hno => exact iff_of_true rfl hno
  | formatN k hop | formatI k hop | truncated k hop => exact iff_of_false nofun (fun hno => hno k hop)

variable {k : Mnemonic}

/-- Format `N` (R81), whatever follows the opcode byte. -/
theorem fetch_formatN (hm : s.config.opcodeMap.wf) (h : s.ip < s.config.tapeCapacity)
    (hop : Memory.get s.tape s.ip = s.config.opcodeMap.byteOf k) (hk : k.format = .n) :
    fetch s = .instr (k.instr 0) := by
  have hlen : (k.instr 0).length = 1 := by simp [Instr.length, hk]
  refine fetch_of_encoding hm (hlen ▸ h) ?_
  rw [hlen, encode_instr_formatN _ hk, ← hop]
  rfl

/-- Format `I` with its immediate in the tape (R82, R89). -/
theorem fetch_formatI (hm : s.config.opcodeMap.wf)
    (hop : Memory.get s.tape s.ip = s.config.opcodeMap.byteOf k) (hk : k.format = .i)
    (hfit : s.ip + 5 ≤ s.config.tapeCapacity) :
    fetch s = .instr (k.instr (decodeWord (Memory.get s.tape (s.ip + 1))
      (Memory.get s.tape (s.ip + 2)) (Memory.get s.tape (s.ip + 3)) (Memory.get s.tape (s.ip + 4)))) := by
  have hlen (imm : Word) : (k.instr imm).length = 5 := by simp [Instr.length, hk]
  refine fetch_of_encoding hm (hlen _ ▸ hfit) ?_
  rw [hlen, encode_instr_formatI _ hk, encodeWord_decodeWord, ← hop]
  rfl

/-- Format `I` with its immediate not all in the tape (R89). -/
theorem fetch_truncated (hm : s.config.opcodeMap.wf) (h : s.ip < s.config.tapeCapacity)
    (hop : Memory.get s.tape s.ip = s.config.opcodeMap.byteOf k) (hk : k.format = .i)
    (hshort : s.config.tapeCapacity < s.ip + 5) : fetch s = .raises .boundsError := by
  have hf := fetch_of_ip_lt h
  generalize fetch s = f at hf
  cases hf with
  | unknown hno => exact absurd hop.symm (hno k)
  | formatN k' hop' hk' =>
    obtain rfl : k' = k := OpcodeMap.byteOf_inj hm (hop'.trans hop)
    exact absurd (hk.symm.trans hk') nofun
  | formatI _ _ _ hfit => omega
  | truncated => rfl

end Fetch

/-- Settles O4: the fetch raises `UnknownOpcodeError` for the illegal bytes alone, and a byte of the map
decides the format, whose immediate is in the tape or is not. -/
theorem illegalOpcodeRaisesUnknownOpcodeError : Obligations.IllegalOpcodeRaisesUnknownOpcodeError := by
  refine ⟨defaultOpcodeMap_lookup_eq_none, fun s h => (fetch_unknownOpcode_iff h).symm,
    fun s hr h hno => step_of_raises hr ((fetch_unknownOpcode_iff h).2 hno), fun s k hm h hop => ?_⟩
  cases hk : k.format with
  | n => exact .inl ⟨0, fetch_formatN hm h hop hk⟩
  | i =>
    by_cases hfit : s.ip + 5 ≤ s.config.tapeCapacity
    · exact .inl ⟨_, fetch_formatI hm hop hk hfit⟩
    · have hshort := Nat.lt_of_not_le hfit
      exact .inr ⟨rfl, hshort, fetch_truncated hm h hop hk hshort⟩

/-- Settles O11: past the tape nothing is read, and in the tape the opcode byte at `IP` is the fetched
instruction's or explains the fault. -/
theorem opcodeFetchAnswers : Obligations.OpcodeFetchAnswers := by
  refine ⟨fun s => step_of_endOfTape, fun s hr h => step_of_raises hr (fetch_of_capacity_lt h),
    fun s h => ?_, fun s k => fetch_formatN⟩
  have hf := fetch_of_ip_lt h
  generalize fetch s = f at hf
  cases hf with
  | unknown hno =>
    refine ⟨nofun, nofun, ?_⟩
    rintro _ ⟨⟩
    exact .inl ⟨rfl, hno⟩
  | formatN k hop | formatI k hop =>
    refine ⟨nofun, ?_, nofun⟩
    rintro _ ⟨⟩
    rw [Mnemonic.mnemonic_instr, hop]
  | truncated k hop hk hshort =>
    refine ⟨nofun, nofun, ?_⟩
    rintro _ ⟨⟩
    exact .inr ⟨rfl, hshort, k, hk, hop⟩

/-- Settles O12, by the two sides of `IP + 5 = C`. -/
theorem immediateFetch : Obligations.ImmediateFetch := fun _ _ hm hr h hop hk =>
  ⟨fun hshort => step_of_raises hr (fetch_truncated hm h hop hk hshort), fetch_formatI hm hop hk⟩

/-! ### The step -/

/-- Settles O9: in the tape the fetch answers what the decoder does, and the step runs it. -/
theorem stepRunsTheDecodedInstruction : Obligations.StepRunsTheDecodedInstruction :=
  fun _ _ rest hr h hdec => step_of_instr hr (fetch_instr.2 ⟨h, rest, hdec⟩)

/-- Settles O10: the fetch answers the instruction whose encoding stands at `IP`, and the step runs it. -/
theorem stepRunsTheEncodedInstruction : Obligations.StepRunsTheEncodedInstruction := by
  intro s i hm hr hread
  obtain ⟨⟨-, hfit⟩, hrun⟩ := memRead_eq_some.1 hread
  exact step_of_instr hr (fetch_of_encoding hm (by exact_mod_cast hfit) hrun.symm)

/-- Every answer an instruction has is a next state (R213). -/
theorem exec_total (i : Instr) (s : State) : ∃ t, exec i s = .next t := by
  have ha := exec_answer i s
  generalize exec i s = r at ha
  cases ha with
  | underflow | overflow | fault | wait | complete => exact ⟨_, rfl⟩

/-- Settles O16: a running machine ends the tape, takes a fault or runs an instruction, and each is a
next state. -/
theorem runningAlwaysSteps : Obligations.RunningAlwaysSteps := by
  refine ⟨exec_total, fun s hr => ?_⟩
  cases hf : fetch s with
  | endOfTape => exact ⟨_, step_of_endOfTape hr (fetch_endOfTape.1 hf)⟩
  | raises k => exact ⟨_, step_of_raises hr hf⟩
  | instr i =>
    rw [step_of_instr hr hf]
    exact exec_total i s

/-! ### Where a completed instruction leaves IP and the stack -/

/-- The stack holds the words that `i` pops, and `rest` stands below them. -/
def Popped (s : State) (i : Instr) (rest : List Word) : Prop :=
  i.mnemonic.pops ≤ s.stack.length ∧ s.stack.drop i.mnemonic.pops = rest

/-- How instruction `i` can end in `s`: with a fault, as a READ that has no answer yet (R36), or completed,
with `top` in place of the words popped (R84) and, unless control went elsewhere, at `IP + length` (R91).
(`Answer` counts the stack's words and says no more of a wait; here it matters which words stay and who
waits.) -/
inductive Ends (s : State) (i : Instr) : StepResult → Prop where
  | fault (k : FaultKind) (b : State) : Ends s i (raise k b)
  | wait (hi : i = .readInt ∧ s.numberInput = [] ∨ i = .readString ∧ s.textInput = []) :
      Ends s i (hold s)
  | complete (top : List Word) {rest : List Word} {t : State} (hpop : Popped s i rest)
      (htop : top.length = i.mnemonic.pushes) (hstack : t.stack = top ++ rest)
      (hip : FallsThrough s i → t.ip = s.ip + i.length) : Ends s i (.next t)

section Ends

variable {s t : State} {i : Instr}

theorem popped_none (hp : i.mnemonic.pops = 0) : Popped s i s.stack := by simp [Popped, hp]

theorem ends_needOne {body : Word → List Word → StepResult} (hp : i.mnemonic.pops = 1)
    (h : ∀ x rest, Popped s i rest → Ends s i (body x rest)) : Ends s i (needOne s body) := by
  cases hs : s.stack with
  | nil => exact needOne_of_nil hs ▸ .fault _ s
  | cons x rest => exact needOne_of_cons hs ▸ h x rest (by simp [Popped, hs, hp])

theorem ends_needTwo {body : Word → Word → List Word → StepResult} (hp : i.mnemonic.pops = 2)
    (h : ∀ x y rest, Popped s i rest → Ends s i (body x y rest)) : Ends s i (needTwo s body) := by
  by_cases hd : s.stack.length < 2
  · exact needTwo_of_short hd ▸ .fault _ s
  · obtain ⟨x, y, rest, hs⟩ := exists_two_of_depth (Nat.le_of_not_lt hd)
    exact needTwo_of_cons hs ▸ h x y rest (by simp [Popped, hs, hp])

theorem ends_room {body : StepResult} (h : Ends s i body) : Ends s i (room s body) := by
  unfold room
  split
  · exact h
  · exact .fault _ s

theorem ends_pushImmediate (imm : Word) (hp : i.mnemonic.pops = 0) (hq : i.mnemonic.pushes = 1)
    (hlen : i.length = 5) : Ends s i (pushImmediate imm s) :=
  ends_room (.complete [imm] (popped_none hp) hq.symm rfl fun _ => by simp [hlen])

theorem ends_arith (op : ArithOp) (hp : i.mnemonic.pops = 2) (hq : i.mnemonic.pushes = 1)
    (hlen : i.length = 1) : Ends s i (arith op s) := by
  refine ends_needTwo hp fun b a rest hpop => ?_
  split
  · exact .fault _ s
  · exact .complete [op.apply a b] hpop hq.symm rfl fun _ => by simp [hlen]

theorem ends_jump (imm : Word) (hp : i.mnemonic.pops = 0) (hq : i.mnemonic.pushes = 0)
    (hlen : i.length = 5) : Ends s i (jump i.mnemonic imm s) := by
  unfold jump
  split
  · next hcond =>
    split
    · exact .fault _ s
    · exact .complete [] (popped_none hp) hq.symm rfl fun ⟨_, _, hno⟩ => absurd hcond (by simp [hno])
  · exact .complete [] (popped_none hp) hq.symm rfl fun _ => by simp [hlen]

theorem ends_readInt : Ends s .readInt (execReadInt s) := by
  refine ends_room ?_
  split
  · next hq => exact .wait (.inl ⟨rfl, hq⟩)
  · exact .fault _ _
  · next n more hq =>
    split
    · exact .complete [wrap32 n] (popped_none rfl) rfl rfl fun _ => rfl
    · exact .fault _ _

theorem ends_readString : Ends s .readString (execReadString s) := by
  refine ends_needTwo rfl fun bufLen addr rest hpop => ?_
  split
  · next hq => exact .wait (.inr ⟨rfl, hq⟩)
  · next bs more hq =>
    split
    · exact .complete [sentinel] hpop rfl rfl fun _ => rfl
    · split
      · exact .fault _ _
      · exact .complete [wrap32 bs.length] hpop rfl rfl fun _ => rfl

/-- Every instruction ends as its row of R84 and R91 say. -/
theorem exec_ends (i : Instr) (s : State) : Ends s i (exec i s) := by
  cases i with
  | nop | halt => exact .complete [] (popped_none rfl) rfl rfl fun _ => rfl
  | push imm | const imm => exact ends_pushImmediate imm rfl rfl rfl
  | pop | test | printInt =>
    exact ends_needOne rfl fun _ _ hpop => .complete [] hpop rfl rfl fun _ => rfl
  | load =>
    refine ends_needOne rfl fun a rest hpop => ?_
    split
    · exact .fault _ s
    · next v _ => exact .complete [v] hpop rfl rfl fun _ => rfl
  | store =>
    refine ends_needTwo rfl fun v a rest hpop => ?_
    split
    · exact .fault _ s
    · exact .complete [] hpop rfl rfl fun _ => rfl
  | add | sub | mul | div | mod => exact ends_arith _ rfl rfl rfl
  | call =>
    refine ends_needOne rfl fun w rest hpop => ?_
    split
    · exact .fault _ s
    · exact .complete [s.returnAddress] hpop rfl rfl fun hf => absurd rfl hf.1
  | ret =>
    refine ends_needOne rfl fun w rest hpop => ?_
    split
    · exact .fault _ s
    · exact .complete [] hpop rfl rfl fun hf => absurd rfl hf.2.1
  | dup =>
    exact ends_needOne rfl fun v _ hpop => ends_room (.complete [v, v] hpop rfl rfl fun _ => rfl)
  | swap => exact ends_needTwo rfl fun x y _ hpop => .complete [y, x] hpop rfl rfl fun _ => rfl
  | cmp => exact ends_needTwo rfl fun _ _ _ hpop => .complete [] hpop rfl rfl fun _ => rfl
  | jmp imm | jz imm | jnz imm | jbz imm | jaz imm | jl imm | jle imm | je imm | jne imm | ja imm
  | jae imm => exact ends_jump imm rfl rfl rfl
  | printString =>
    refine ends_needTwo rfl fun len addr rest hpop => ?_
    split
    · exact .fault _ s
    · split
      · exact .fault _ s
      · exact .complete [] hpop rfl rfl fun _ => rfl
  | readInt => exact ends_readInt
  | readString => exact ends_readString

/-- An instruction that neither faults nor waits has completed. -/
theorem exec_completes (h : exec i s = .next t) (hk : ∀ k, t.status ≠ .faulted k)
    (hn : i = .readInt → s.numberInput ≠ []) (ht : i = .readString → s.textInput ≠ []) :
    ∃ top rest, Popped s i rest ∧ top.length = i.mnemonic.pushes ∧ t.stack = top ++ rest ∧
      (FallsThrough s i → t.ip = s.ip + i.length) := by
  have he := exec_ends i s
  generalize exec i s = r at he h
  cases he with
  | fault k b =>
    obtain rfl := raise_next h
    exact absurd rfl (hk k)
  | wait hi =>
    obtain ⟨hi, hq⟩ | ⟨hi, hq⟩ := hi
    · exact absurd hq (hn hi)
    · exact absurd hq (ht hi)
  | complete top hpop htop hstack hip =>
    obtain rfl := Host.Outcome.next.inj h
    exact ⟨top, _, hpop, htop, hstack, hip⟩

end Ends

/-- Settles O13: a fetched instruction lies in the tape, and one that completes and goes on with the
bytes after it moves `IP` past itself. -/
theorem nextIpIsIpPlusLength : Obligations.NextIpIsIpPlusLength := by
  refine ⟨fun s i => fetch_instr_fits, fun s t i hf hstep hr hn ht hcall hret hcond => ?_⟩
  have hexec : exec i s = .next t := step_of_instr (step_next hstep).1 hf ▸ hstep
  obtain ⟨_, _, -, -, -, hip⟩ := exec_completes hexec (by simp [hr]) hn ht
  exact hip ⟨hcall, hret, hcond⟩

/-- Settles O57: what a completed instruction leaves is its pushes on the words below its pops. -/
theorem stackFrame : Obligations.StackFrame := by
  intro i s t h hk hn ht
  obtain ⟨top, _, ⟨hdepth, rfl⟩, htop, hstack, -⟩ := exec_completes h hk hn ht
  exact ⟨hdepth, top, htop, hstack⟩

end Sys2Proof.Machine
end

section
/-! PROOFS. The statements of spec/40_basic.md: NOP, PUSH, POP and CONST (R110 to R113), and the run of an
empty tape to its end (the corner case of R110). -/

namespace Sys2Proof

/-- NOP stands first in the table of R84, so its byte finds it even under a map that is not injective. -/
theorem OpcodeMap.lookup_nop (m : OpcodeMap) : m.lookup m.nop = some Mnemonic.nop.entry :=
  congrArg (Option.map Mnemonic.entry) (List.find?_cons_of_pos (beq_self_eq_true m.nop))

end Sys2Proof

namespace Sys2Proof.Machine

section Basic

variable {s : State}

/-! ### The instructions -/

theorem exec_nop : exec .nop s = .next { s with ip := s.ip + 1 } := rfl

theorem exec_pop {x : Word} {rest : List Word} (hs : s.stack = x :: rest) :
    exec .pop s = .next { s with stack := rest, ip := s.ip + 1 } :=
  needOne_of_cons hs

/-- The shared effect of PUSH and CONST where there is room (R111, R113). -/
theorem pushImmediate_of_hasRoom (hr : s.HasRoom) (imm : Word) :
    pushImmediate imm s = .next { s with stack := imm :: s.stack, ip := s.ip + 5 } :=
  room_of_hasRoom hr

/-! ### The zero tape -/

/-- The opcode byte of NOP is fetched as NOP under any map. -/
theorem fetch_nop (h : s.ip < s.config.tapeCapacity)
    (hop : Memory.get s.tape s.ip = s.config.opcodeMap.nop) : fetch s = .instr .nop := by
  rw [fetch_instr, window_of_ip_lt h, hop, decode, OpcodeMap.lookup_nop]
  exact ⟨h, _, rfl⟩

/-- A step on a zero byte that is NOP's only moves `IP` to the next byte. -/
theorem step_on_zeroTape (hnop : s.config.opcodeMap.nop = 0) (hr : s.status = .running)
    (htape : s.tape = []) (h : s.ip < s.config.tapeCapacity) :
    step s = .next { s with ip := s.ip + 1 } := by
  have hop : Memory.get s.tape s.ip = s.config.opcodeMap.nop := by rw [htape, hnop, Memory.get]
  rw [step_of_instr hr (fetch_nop h hop), exec_nop]

/-- From `n` bytes before the end, `n` NOPs and the step that finds the end (R88). -/
theorem run_zeroTape (n : Nat) (hnop : s.config.opcodeMap.nop = 0) (hr : s.status = .running)
    (htape : s.tape = []) (hn : s.ip + n = s.config.tapeCapacity) :
    Host.Core.run core (n + 1) s =
      .next { s with ip := s.config.tapeCapacity, status := .halted .endOfTape } := by
  induction n generalizing s with
  | zero =>
    rw [← hn]
    exact run_succ_of_next core (step_of_endOfTape hr hn)
  | succ n ih =>
    have hstep := step_on_zeroTape hnop hr htape (by omega)
    exact (run_succ_of_next core hstep).trans (ih hnop hr htape ((Nat.succ_add_eq_add_succ ..).trans hn))

end Basic

/-- Settles O28: NOP checks nothing, and POP checks the depth alone. -/
theorem nopAndPopResults : Obligations.NopAndPopResults :=
  ⟨rfl, rfl, fun _ => exec_nop, fun _ _ _ => exec_pop, fun _ hs => needOne_of_nil hs⟩

/-- Settles O29: PUSH and CONST are one operation behind the check for room, and the fetch of either
raises `BoundsError` when its immediate is not all in the tape. -/
theorem pushAndConstResults : Obligations.PushAndConstResults := by
  intro imm
  refine ⟨rfl, rfl, fun s hr => ?_, fun s hfull => ?_, fun s hm hr hip hop hshort => ?_⟩
  · exact ⟨pushImmediate_of_hasRoom hr imm, pushImmediate_of_hasRoom hr imm⟩
  · exact ⟨room_of_full hfull, room_of_full hfull⟩
  · obtain hpush | hconst := hop
    · exact step_of_raises hr (fetch_truncated (k := .push) hm hip hpush rfl hshort)
    · exact step_of_raises hr (fetch_truncated (k := .const) hm hip hconst rfl hshort)

/-- Settles O30: POP takes off the word that PUSH put on top. -/
theorem pushThenPopLeavesTheStack : Obligations.PushThenPopLeavesTheStack := fun _ v hr =>
  ⟨_, pushImmediate_of_hasRoom hr v, exec_pop rfl⟩

/-- Settles O31, by induction on the number of bytes from `IP` to the end of the tape. -/
theorem zeroTapeRunsToItsEnd : Obligations.ZeroTapeRunsToItsEnd := fun _ hnop hr htape hle =>
  run_zeroTape _ hnop hr htape (Nat.add_sub_cancel' hle)

end Sys2Proof.Machine
end

section
/-! PROOFS. The statements of spec/41_memory_access.md: what LOAD and STORE do, with both of their faults
(R120, R121), and what STORE leaves as it was. -/

namespace Sys2Proof.Machine

section MemoryAccess

variable {s : State} {v a : Word} {rest : List Word}

/-- The two ways in which a run of bytes is not all in the tape (R51). -/
theorem not_inBounds_iff {x : Int} {n : Nat} :
    ¬ s.InBounds x n ↔ x < 0 ∨ (s.config.tapeCapacity : Int) < x + n := by
  rw [not_and_or, not_le, not_le]

/-- The bytes of a written word, in address order (R55, R57). -/
theorem Memory.get_writeRun_encodeWord {m : Memory} (h : Memory.wf m) (x : Nat) (v : Word) {j : Nat}
    (hj : j < 4) : Memory.get (Memory.writeRun m x (encodeWord v)) (x + j) = v.extractLsb' (8 * j) 8 := by
  rw [Memory.get_writeRun_of_inside h hj]
  exact (List.getElem_eq_iff hj).2 (encodeWord_getElem? v hj)

/-- LOAD with its address out of bounds (R120). -/
theorem load_outOfBounds (hs : s.stack = a :: rest) (hb : ¬ s.InBounds a.toInt 4) :
    exec .load s = raise .boundsError s := by
  simp only [exec, execLoad, needOne_of_cons hs, readWord_eq_none.2 hb]

/-- STORE with its address out of bounds (R121). -/
theorem store_outOfBounds (hs : s.stack = v :: a :: rest) (hb : ¬ s.InBounds a.toInt 4) :
    exec .store s = raise .boundsError s := by
  simp only [exec, execStore, needTwo_of_cons hs, writeWord_eq_none.2 hb]

end MemoryAccess

/-- Settles O32: behind the depth check, the address is in bounds or it is not. -/
theorem loadResult : Obligations.LoadResult := by
  refine ⟨rfl, fun s a rest hs hlo hhi => ?_, fun s a rest hs hout => ?_, fun _ => needOne_of_nil⟩
  · have hword := readWord_of_inBounds (s := s) (a := a.toInt) ⟨hlo, hhi⟩
    rw [toNat_toInt_of_nonneg hlo] at hword
    exact load_of_readWord hs hword
  · exact load_outOfBounds hs (not_inBounds_iff.2 hout)

/-- Settles O33: the tape after a STORE is the one before with the value's encoding written at the
address, a run of four bytes. -/
theorem storeResult : Obligations.StoreResult := by
  refine ⟨rfl, fun s v a rest hwf hs hlo hhi => ?_, fun s v a rest hs hout => ?_,
    fun _ => needTwo_of_short⟩
  · have hstore := store_inBounds hs ⟨hlo, hhi⟩
    rw [toNat_toInt_of_nonneg hlo] at hstore
    exact ⟨_, hstore, fun _ => Memory.get_writeRun_encodeWord hwf a.toNat v,
      fun _ hx => Memory.get_writeRun_of_outside hwf hx⟩
  · exact store_outOfBounds hs (not_inBounds_iff.2 hout)

/-- Settles O58: a STORE in bounds writes its four bytes alone, and one out of bounds changes only the
status. -/
theorem storeFrame : Obligations.StoreFrame := by
  intro s t v a rest hwf hs h
  by_cases hb : s.InBounds a.toInt 4
  · obtain rfl := Host.Outcome.next.inj ((store_inBounds hs hb).symm.trans h)
    refine ⟨fun x hx => Memory.get_writeRun_of_outside hwf ?_, rfl, rfl, rfl, rfl, rfl⟩
    rw [encodeWord_length]
    omega
  · obtain rfl := raise_next ((store_outOfBounds hs hb).symm.trans h)
    exact ⟨fun _ _ => rfl, rfl, rfl, rfl, rfl, rfl⟩

end Sys2Proof.Machine
end

section
/-! PROOFS. The statements of spec/42_arithmetic.md: the results and the faults of ADD, SUB, MUL, DIV and
MOD (R130 to R136), and the one quotient that is no word (R134). -/

namespace Sys2Proof

/-! ### Truncated division of words -/

/-- The remainder of a truncated division is smaller in size than the divisor (R135). -/
theorem abs_tmod_lt_abs (a : Int) {b : Int} (hb : b ≠ 0) : |a.tmod b| < |b| := by
  rw [Int.abs_eq_natAbs, Int.abs_eq_natAbs, Int.natAbs_tmod]
  exact_mod_cast Nat.mod_lt a.natAbs (Int.natAbs_pos.2 hb)

/-- The remainder of a truncated division is not positive where the dividend is not (R135). -/
theorem tmod_nonpos_of_nonpos {a : Int} (b : Int) (ha : a ≤ 0) : a.tmod b ≤ 0 := by
  have hneg : 0 ≤ (-a).tmod b := Int.tmod_nonneg b (Int.neg_nonneg_of_nonpos ha)
  rw [Int.neg_tmod] at hneg
  exact Int.nonpos_of_neg_nonneg hneg

/-- The wrapped quotient is the signed division of the bit vectors. -/
theorem wrap32_tdiv (a b : Word) : wrap32 (a.toInt.tdiv b.toInt) = a.sdiv b := by
  rw [← BitVec.toInt_inj, wrap32, BitVec.toInt_ofInt, BitVec.toInt_sdiv]

/-- The remainder is a word, that of the signed division of the bit vectors, so the wrap keeps it. -/
theorem toInt_wrap32_tmod (a b : Word) :
    (wrap32 (a.toInt.tmod b.toInt)).toInt = a.toInt.tmod b.toInt := by
  rw [← BitVec.toInt_srem, Machine.wrap32_toInt]

/-- The wrap changes a quotient only for `-2^31 / -1`, whose quotient `2^31` wraps to `-2^31` (R134). -/
theorem toInt_wrap32_tdiv (a b : Word) :
    (wrap32 (a.toInt.tdiv b.toInt)).toInt = a.toInt.tdiv b.toInt ∨
      (a.toInt = -(2 ^ 31) ∧ b.toInt = -1 ∧ (wrap32 (a.toInt.tdiv b.toInt)).toInt = -(2 ^ 31)) := by
  rw [wrap32_tdiv]
  by_cases h : a = BitVec.intMin 32 ∧ b = -1#32
  · obtain ⟨rfl, rfl⟩ := h
    exact .inr (by decide)
  · exact .inl (BitVec.toInt_sdiv_of_ne_or_ne a b (not_and_or.1 h))

end Sys2Proof

namespace Sys2Proof.Machine

section Arithmetic

variable {s : State} {op : ArithOp} {b a : Word} {rest : List Word}

/-! ### The shared operation behind the depth check -/

/-- `Arith(op)` where no zero divisor stands in its way: the result takes the place of both operands
(R130). -/
theorem arith_of_defined (hs : s.stack = b :: a :: rest) (h : op.divides = true → b.toInt ≠ 0) :
    arith op s = .next { s with stack := op.apply a b :: rest, ip := s.ip + 1 } :=
  (needTwo_of_cons hs).trans (if_neg fun hz => h hz.1 hz.2)

/-- DIV and MOD with a zero divisor (R134, R135). -/
theorem arith_of_zero_divisor (hs : s.stack = b :: a :: rest) (hop : op.divides = true)
    (hb : b.toInt = 0) : arith op s = raise .arithmeticError s :=
  (needTwo_of_cons hs).trans (if_pos ⟨hop, hb⟩)

end Arithmetic

/-- Settles O37: ADD, SUB and MUL divide by nothing, so behind the depth check they always complete. -/
theorem addSubMulResults : Obligations.AddSubMulResults := by
  refine ⟨rfl, rfl, rfl, fun s b a rest hs => ?_, fun s hshort i hi => ?_⟩
  · exact ⟨arith_of_defined (op := .add) hs nofun, arith_of_defined (op := .sub) hs nofun,
      arith_of_defined (op := .mul) hs nofun⟩
  · simp only [List.mem_cons, List.not_mem_nil, or_false] at hi
    obtain rfl | rfl | rfl := hi <;> exact needTwo_of_short hshort

/-- Settles O38: the quotient and the remainder are those of the truncated division, and the zero divisor
is looked at behind the depth check. -/
theorem divModResults : Obligations.DivModResults := by
  refine ⟨rfl, rfl, fun s b a rest hs hb => ?_, fun s b a rest hs hb => ?_, fun s hshort => ?_⟩
  · exact ⟨a.toInt.tdiv b.toInt, a.toInt.tmod b.toInt, (Int.mul_tdiv_add_tmod ..).symm,
      abs_tmod_lt_abs _ hb, Int.tmod_nonneg _, tmod_nonpos_of_nonpos _,
      arith_of_defined (op := .div) hs fun _ => hb,
      _, toInt_wrap32_tmod a b, arith_of_defined (op := .mod) hs fun _ => hb⟩
  · exact ⟨arith_of_zero_divisor (op := .div) hs rfl hb, arith_of_zero_divisor (op := .mod) hs rfl hb⟩
  · exact ⟨needTwo_of_short hshort, needTwo_of_short hshort⟩

/-- Settles O39: DIV pushes the wrapped quotient, and the wrap changes that of `-2^31 / -1` alone. -/
theorem divIsExactButForOneCase : Obligations.DivIsExactButForOneCase := by
  intro s t b a rest hs hb hexec
  have hdiv : exec .div s = _ := arith_of_defined (op := .div) hs fun _ => hb
  obtain rfl := Host.Outcome.next.inj (hdiv.symm.trans hexec)
  exact ⟨_, rfl, toInt_wrap32_tdiv a b⟩

end Sys2Proof.Machine
end

section
/-! PROOFS. The statements of spec/43_call_return.md: what CALL and RET do, with both of their faults
(R140, R141), and the return to the instruction after the CALL (R142). -/

namespace Sys2Proof.Machine

section CallReturn

variable {s : State} {t : Word} {a : Nat} {rest : List Word}

/-! ### The target and the return address -/

theorem target_of_inRange (hlo : 0 ≤ t.toInt) (hhi : t.toInt < s.config.tapeCapacity) :
    s.target t = some t.toNat := by
  have hnat := toNat_toInt_of_nonneg hlo
  exact target_eq_some.2 (by omega)

/-- The address after a CALL inside a tape of admitted capacity is a word, so the wrap keeps it (R5,
R140). -/
theorem toInt_returnAddress (hC : s.config.tapeCapacity ≤ 2 ^ 31 - 1)
    (hip : s.ip < s.config.tapeCapacity) : s.returnAddress.toInt = s.ip + 1 :=
  toInt_wrap32 (n := (s.ip + 1 : Nat)) ⟨by omega, by omega⟩

/-! ### The instructions behind the depth check -/

theorem call_of_target (hs : s.stack = t :: rest) (ht : s.target t = some a) :
    exec .call s = .next { s with stack := s.returnAddress :: rest, ip := a } := by
  simp only [exec, execCall, needOne_of_cons hs, ht, State.setStack, State.setIp]

theorem call_outOfRange (hs : s.stack = t :: rest)
    (ht : t.toInt < 0 ∨ (s.config.tapeCapacity : Int) ≤ t.toInt) :
    exec .call s = raise .boundsError s := by
  simp only [exec, execCall, needOne_of_cons hs, target_eq_none.2 ht]

theorem ret_of_target (hs : s.stack = t :: rest) (ht : s.target t = some a) :
    exec .ret s = .next { s with stack := rest, ip := a } := by
  simp only [exec, execRet, needOne_of_cons hs, ht, State.setStack, State.setIp]

theorem ret_outOfRange (hs : s.stack = t :: rest)
    (ht : t.toInt < 0 ∨ (s.config.tapeCapacity : Int) ≤ t.toInt) :
    exec .ret s = raise .boundsError s := by
  simp only [exec, execRet, needOne_of_cons hs, target_eq_none.2 ht]

end CallReturn

/-- Settles O40: behind the depth check, the target is an address of the tape or it is not. -/
theorem callResult : Obligations.CallResult := by
  refine ⟨rfl, fun s t rest hs hlo hhi hC hip => ?_, fun s t rest => call_outOfRange,
    fun _ => needOne_of_nil⟩
  exact ⟨s.returnAddress, toInt_returnAddress hC hip, call_of_target hs (target_of_inRange hlo hhi)⟩

/-- Settles O41: RET checks its target as CALL does, and leaves nothing in its place. -/
theorem retResult : Obligations.RetResult := by
  refine ⟨rfl, fun s t rest hs hlo hhi => ?_, fun s t rest => ret_outOfRange,
    fun _ => needOne_of_nil⟩
  exact ret_of_target hs (target_of_inRange hlo hhi)

/-- Settles O42: the return address of a CALL before the last byte of the tape is a target of every
state with the same capacity. -/
theorem retResumesAfterTheCall : Obligations.RetResumesAfterTheCall := by
  intro s a rest hs hlo hhi hC hip
  have hword : s.returnAddress.toInt = s.ip + 1 := toInt_returnAddress hC (by omega)
  refine ⟨_, s.returnAddress, call_of_target hs (target_of_inRange hlo hhi), rfl, rfl,
    fun u below hconfig hu => ret_of_target hu ?_⟩
  exact target_eq_some.2 ⟨hword, hconfig ▸ hip⟩

end Sys2Proof.Machine
end

section
/-! PROOFS. The statements of spec/44_stack_manipulation.md: what DUP and SWAP do, with their faults
(R150, R151). -/

namespace Sys2Proof.Machine

section StackManipulation

variable {s : State} {v x y : Word} {rest : List Word}

theorem dup_of_cons (hs : s.stack = v :: rest) :
    exec .dup s = room s (.next { s with stack := v :: v :: rest, ip := s.ip + 1 }) :=
  needOne_of_cons hs

theorem swap_of_cons (hs : s.stack = x :: y :: rest) :
    exec .swap s = .next { s with stack := y :: x :: rest, ip := s.ip + 1 } :=
  needTwo_of_cons hs

end StackManipulation

/-- Settles O43: behind the depth check DUP asks for room, and SWAP always completes. -/
theorem dupAndSwapResults : Obligations.DupAndSwapResults := by
  refine ⟨rfl, rfl, fun s v rest hs hr => ?_, fun s v rest hs hfull => ?_,
    fun _ => needOne_of_nil, fun _ _ _ _ => swap_of_cons, fun _ => needTwo_of_short⟩
  · exact (dup_of_cons hs).trans (room_of_hasRoom hr)
  · exact (dup_of_cons hs).trans (room_of_full hfull)

end Sys2Proof.Machine
end

section
/-! PROOFS. The statements of spec/45_compare_test.md: what CMP and TEST write and what they leave, with
their faults (R160, R161), and the consistency of a written family in every reachable state. -/

namespace Sys2Proof.Machine

/-! ### The orders of the words as bit vectors -/

/-- CMP compares the integers exactly, which is the equality and the signed order of the bit vectors
(R160). -/
theorem Flags.compare_eq (f : Flags) (a b : Word) :
    f.compare a b = { f with
      equal := decide (a = b), notEqual := decide (a ≠ b), above := b.slt a, below := a.slt b } := by
  simp only [Flags.compare, Flags.resetRelational, BitVec.slt, BitVec.toInt_inj, gt_iff_lt, ne_eq]

/-- TEST writes what a comparison with the word 0 gives (R161). -/
theorem Flags.signTest_eq (f : Flags) (a : Word) :
    f.signTest a = { f with
      zero := decide (a = 0), notZero := decide (a ≠ 0),
      aboveZero := (0 : Word).slt a, belowZero := a.slt 0 } := by
  have hzero : (0 : Word).toInt = 0 := rfl
  simp only [Flags.signTest, Flags.resetSignTest, BitVec.slt, ← BitVec.toInt_inj, hzero,
    gt_iff_lt, ne_eq]

/-- Settles O44: behind the depth check CMP always completes, by the order of the bit vectors. -/
theorem cmpResult : Obligations.CmpResult := by
  refine ⟨rfl, fun s b a rest hs => ?_, fun _ => needTwo_of_short⟩
  rw [← Flags.compare_eq]
  exact needTwo_of_cons hs

/-- Settles O45: TEST completes on any word, by its order against 0. -/
theorem testResult : Obligations.TestResult := by
  refine ⟨rfl, fun s a rest hs => ?_, fun _ => needOne_of_nil⟩
  rw [← Flags.signTest_eq]
  exact needOne_of_cons hs

/-! ### Consistent families -/

/-- A family with a flag set is as its writer left it: of the four legal values, all false is none. -/
theorem consistent_of_familyLegal {same differs more less : Bool}
    (h : familyLegal same differs more less = true) (hset : same ∨ differs ∨ more ∨ less) :
    (differs = !same) ∧ (differs = (more ^^ less)) ∧ ¬ (more ∧ less) := by
  unfold familyLegal at h
  split at h
  · simp at hset
  · decide
  · decide
  · decide
  · exact nomatch h

/-- Settles O22: the invariant of the reachable states has both families legal. -/
theorem reachableFlagsAreConsistent : Obligations.ReachableFlagsAreConsistent := by
  intro s hreach
  obtain ⟨-, -, -, -, -, hflags⟩ := reachableStatesMeetTheInvariant s hreach
  obtain ⟨hrel, hsign⟩ := Bool.and_eq_true_iff.1 hflags
  exact ⟨consistent_of_familyLegal hrel, consistent_of_familyLegal hsign⟩

end Sys2Proof.Machine
end

section
/-! PROOFS. The statements of spec/46_jumps.md: what JMP and the ten conditional jumps do, with their
faults (R170 to R181), and the JMP to its own address that never ends (R171, R235). -/

namespace Sys2Proof

/-- The mnemonics of the table of R170, in its order. -/
def Mnemonic.jumps : List Mnemonic :=
  [.jmp, .jz, .jnz, .jbz, .jaz, .jl, .jle, .je, .jne, .ja, .jae]

theorem Mnemonic.format_of_mem_jumps : ∀ k ∈ Mnemonic.jumps, k.format = .i := by decide

end Sys2Proof

namespace Sys2Proof.Machine

section Jumps

variable {s : State} {k : Mnemonic} {imm : Word}

/-! ### The shared behavior of the jumps -/

theorem exec_of_mem_jumps (hk : k ∈ Mnemonic.jumps) (imm : Word) (s : State) :
    exec (k.instr imm) s = jump k imm s := by
  fin_cases hk <;> rfl

theorem jump_taken_inRange (hc : s.flags.condition k = true) (hlo : 0 ≤ imm.toInt)
    (hhi : imm.toInt < s.config.tapeCapacity) : jump k imm s = .next { s with ip := imm.toNat } := by
  rw [jump, if_pos hc, target_of_inRange hlo hhi]
  rfl

theorem jump_taken_outOfRange (hc : s.flags.condition k = true)
    (hout : imm.toInt < 0 ∨ (s.config.tapeCapacity : Int) ≤ imm.toInt) :
    jump k imm s = raise .boundsError s := by
  rw [jump, if_pos hc, target_eq_none.2 hout]

/-- A jump that is not taken does not look at its target (R170). -/
theorem jump_not_taken (hc : s.flags.condition k = false) :
    jump k imm s = .next { s with ip := s.ip + 5 } := by
  rw [jump, if_neg (by simp [hc])]
  rfl

/-! ### The JMP to its own address -/

/-- At `IP` of the running machine stands a JMP to `IP`. -/
structure JumpsToItself (imm : Word) (s : State) : Prop where
  wf : s.config.opcodeMap.wf
  running : s.status = .running
  target : imm.toInt = s.ip
  code : s.memRead s.ip 5 = some (encode s.config.opcodeMap (.jmp imm))

/-- Its bytes are in the tape, so its address is a legal target, and it is where `IP` stands already. -/
theorem JumpsToItself.step_eq (h : JumpsToItself imm s) : step s = .next s := by
  have htarget := h.target
  obtain ⟨⟨-, hfit⟩, -⟩ := memRead_eq_some.1 h.code
  have hlo : 0 ≤ imm.toInt := by omega
  have hip : imm.toNat = s.ip := by
    have := toNat_toInt_of_nonneg hlo
    omega
  calc step s = exec (.jmp imm) s := stepRunsTheEncodedInstruction s (.jmp imm) h.wf h.running h.code
    _ = jump .jmp imm s := rfl
    _ = .next { s with ip := imm.toNat } := jump_taken_inRange rfl hlo (by omega)
    _ = .next s := by rw [hip]

/-- A step stays where it is, and an answer of the host reaches the channels alone. -/
theorem JumpsToItself.move {t : State} (h : JumpsToItself imm s) (hmove : Move s t) :
    JumpsToItself imm t := by
  cases hmove with
  | step _ hstep =>
    obtain rfl : s = t := Host.Outcome.next.inj (h.step_eq.symm.trans hstep)
    exact h
  | answerNumber | answerText => exact ⟨h.wf, h.running, h.target, h.code⟩

theorem JumpsToItself.moves {t : State} (h : JumpsToItself imm s) (hmoves : Moves s t) :
    JumpsToItself imm t := by
  induction hmoves with
  | refl => exact h
  | tail _ _ _ hmove ih => exact ih.move hmove

end Jumps

/-- Settles O47: each row of the table is a mnemonic with its opcode and its condition, and the jumps
share one behavior behind that condition. -/
theorem jumpResults : Obligations.JumpResults := by
  intro s imm
  refine List.forall_mem_map (l := Mnemonic.jumps)
    (f := fun k => (k.instr imm, defaultOpcodeMap.byteOf k, s.flags.condition k)).2 fun k hk => ?_
  have hformat := Mnemonic.format_of_mem_jumps k hk
  rw [exec_of_mem_jumps hk, Mnemonic.mnemonic_instr]
  exact ⟨encode_instr_formatI _ hformat imm, jump_taken_inRange, jump_taken_outOfRange, jump_not_taken,
    fun hm hr h hop hshort => step_of_raises hr (fetch_truncated hm h hop hformat hshort)⟩

/-- Settles O48: the JMP to its own address is kept by every move, and its step is one to the same
state. -/
theorem jumpToItselfRunsForever : Obligations.JumpToItselfRunsForever := by
  intro s imm hm hr htarget hcode
  have hs : JumpsToItself imm s := ⟨hm, hr, htarget, hcode⟩
  refine ⟨fun t k hmoves => ?_, fun t hmoves => ?_⟩
  · simp [(hs.moves hmoves).running]
  · have ht := hs.moves hmoves
    have hip : (t.ip : Int) = s.ip := ht.target.symm.trans hs.target
    exact ⟨ht.running, Int.ofNat.inj hip, t, ht.step_eq⟩

end Sys2Proof.Machine
end

section
/-! PROOFS. The statements of spec/47_io.md: what PRINT_INT, PRINT_STRING, READ_INT and READ_STRING do,
with their faults (R192 to R195), what READ_STRING leaves as it was, and the order of the output (R190). -/

namespace Sys2Proof.Machine

/-! ### Printing -/

section Print

variable {s t : State} {n len addr : Word} {rest : List Word}

theorem printInt_of_cons (hs : s.stack = n :: rest) :
    exec .printInt s = .next { s with
      stack := rest, output := s.output ++ [.number n], ip := s.ip + 1 } :=
  needOne_of_cons hs

theorem printString_inBounds (hs : s.stack = len :: addr :: rest) (hlen : 0 ≤ len.toInt)
    (hb : s.InBounds addr.toInt len.toInt.toNat) :
    exec .printString s = .next { s with
      stack := rest
      output := s.output ++ [.text (Memory.readRun s.tape addr.toInt.toNat len.toInt.toNat)]
      ip := s.ip + 1 } := by
  simp only [exec, execPrintString, needTwo_of_cons hs, if_neg (not_lt.2 hlen),
    memRead_eq_some.2 ⟨hb, rfl⟩]
  rfl

/-- The two causes of the `BoundsError` of PRINT_STRING (R193). -/
theorem printString_outOfBounds (hs : s.stack = len :: addr :: rest)
    (h : len.toInt < 0 ∨ ¬ s.InBounds addr.toInt len.toInt.toNat) :
    exec .printString s = raise .boundsError s := by
  simp only [exec, execPrintString, needTwo_of_cons hs]
  split
  · rfl
  · next hlen => rw [memRead_eq_none.2 (h.resolve_left hlen)]

theorem printInt_output (h : exec .printInt s = .next t) :
    t.output = s.output ∨ ∃ v, t.output = s.output ++ [.number v] := by
  obtain ⟨-, rfl⟩ | ⟨n, rest, hs, -⟩ := needOne_next h
  · exact .inl rfl
  · obtain rfl := Host.Outcome.next.inj ((printInt_of_cons hs).symm.trans h)
    exact .inr ⟨n, rfl⟩

theorem printString_output (h : exec .printString s = .next t) :
    t.output = s.output ∨ ∃ bs, t.output = s.output ++ [.text bs] := by
  obtain ⟨-, rfl⟩ | ⟨len, addr, rest, hs, -⟩ := needTwo_next h
  · exact .inl rfl
  · by_cases hbad : len.toInt < 0 ∨ ¬ s.InBounds addr.toInt len.toInt.toNat
    · obtain rfl := raise_next ((printString_outOfBounds hs hbad).symm.trans h)
      exact .inl rfl
    · obtain ⟨hlen, hb⟩ := not_or.1 hbad
      obtain rfl := Host.Outcome.next.inj
        ((printString_inBounds hs (not_lt.1 hlen) (not_not.1 hb)).symm.trans h)
      exact .inr ⟨_, rfl⟩

end Print

/-- Settles O49: behind the depth check PRINT_INT cannot fail. -/
theorem printIntResult : Obligations.PrintIntResult :=
  ⟨rfl, fun _ _ _ => printInt_of_cons, fun _ => needOne_of_nil⟩

/-- Settles O50: the text emitted is the run of the tape that the two operands name, if they name one. -/
theorem printStringResult : Obligations.PrintStringResult := by
  refine ⟨rfl, fun s len addr rest hs hlen hlo hhi => ?_, fun s len addr rest hs hout => ?_,
    fun _ => needTwo_of_short⟩
  · have hprint := printString_inBounds hs hlen ⟨hlo, by omega⟩
    rw [toNat_toInt_of_nonneg hlen, toNat_toInt_of_nonneg hlo] at hprint
    refine ⟨_, Memory.readRun_length .., fun j hj => ?_, hprint⟩
    have hj : j < (Memory.readRun s.tape addr.toNat len.toNat).length := by simpa using hj
    rw [List.getElem?_eq_getElem hj, Memory.readRun_getElem]
  · refine printString_outOfBounds hs (or_iff_not_imp_left.2 fun hlen => not_inBounds_iff.2 ?_)
    omega

/-! ### Reading -/

/-- Settles O51: the words are the answers that READ_INT takes; malformed input and the numbers beyond
them fault alike. -/
theorem readIntResult : Obligations.ReadIntResult := by
  refine ⟨rfl, fun s w more => readInt_word, fun s n more hr hq hout => ?_, fun s more hr hq => ?_,
    fun s => room_of_full⟩
  · refine readInt_noWord hr hq fun w hw => ?_
    obtain rfl := NumberAnswer.number.inj hw
    obtain ⟨hlo, hhi⟩ := isWord_toInt w
    omega
  · exact readInt_noWord hr hq nofun

/-- Settles O52: a text that fits its buffer has a word for its length, and the tape after it is the one
before with the text written at the address. -/
theorem readStringResult : Obligations.ReadStringResult := by
  refine ⟨rfl, fun s bufLen addr rest bs more hwf hs hq hlen hlo hhi => ?_,
    fun s bufLen addr rest bs more => readString_long,
    fun s bufLen addr rest bs more hs hq hlen hout =>
      readString_outOfBounds hs hq hlen (not_inBounds_iff.2 hout),
    fun s => needTwo_of_short⟩
  have hword : IsWord bs.length := ⟨by omega, hlen.trans (isWord_toInt bufLen).2⟩
  have hread := readString_fits hs hq hlen ⟨hlo, hhi⟩
  rw [toNat_toInt_of_nonneg hlo] at hread
  refine ⟨Memory.writeRun s.tape addr.toNat bs, _, toInt_wrap32 hword, hread, fun j hj => ?_,
    fun x hx => Memory.get_writeRun_of_outside hwf hx⟩
  rw [Memory.get_writeRun_of_inside hwf hj, List.getElem?_eq_getElem hj]

/-- Settles O59: only a text that fits both its buffer and the tape is written, and READ_STRING then
completes. -/
theorem readStringFrame : Obligations.ReadStringFrame := by
  intro s t bufLen addr rest bs more hwf hs hq h
  by_cases hlen : bufLen.toInt < bs.length
  · obtain rfl := Host.Outcome.next.inj ((readString_long hs hq hlen).symm.trans h)
    exact ⟨fun _ _ => rfl, fun _ => rfl, rfl, rfl, rfl, rfl, rfl⟩
  by_cases hb : s.InBounds addr.toInt bs.length
  · obtain rfl := Host.Outcome.next.inj ((readString_fits hs hq (not_lt.1 hlen) hb).symm.trans h)
    refine ⟨fun x hx => Memory.get_writeRun_of_outside hwf ?_, ?_, rfl, rfl, rfl, rfl, rfl⟩
    · omega
    · rintro (hlong | ⟨hfault, hr⟩)
      · exact absurd hlong hlen
      · simp [hr] at hfault
  · obtain rfl := raise_next ((readString_outOfBounds hs hq (not_lt.1 hlen) hb).symm.trans h)
    exact ⟨fun _ _ => rfl, fun _ => rfl, rfl, rfl, rfl, rfl, rfl⟩

/-! ### The order of the output -/

/-- Settles O54: a step that runs no PRINT leaves the output as it was, by the frame of its instruction. -/
theorem outputGrowsInProgramOrder : Obligations.OutputGrowsInProgramOrder := by
  intro s t hstep
  obtain ⟨-, ⟨-, rfl⟩ | ⟨k, -, rfl⟩ | ⟨i, hf, hexec⟩⟩ := step_next hstep
  · exact .inl rfl
  · exact .inl rfl
  by_cases hint : i = .printInt
  · subst hint
    exact (printInt_output hexec).imp id fun hout => .inl ⟨hf, hout⟩
  by_cases hstr : i = .printString
  · subst hstr
    exact (printString_output hexec).imp id fun hout => .inr ⟨hf, hout⟩
  · exact .inl ((exec_frames t hexec).output hint hstr)

end Sys2Proof.Machine
end

section
/-! PROOFS. The statement of spec/48_halt.md: HALT and the end of the run it brings (R200, R32, R234). -/

namespace Sys2Proof.Machine

section Ended

variable {s t : State}

theorem exec_halt :
    exec .halt s = .next { s with ip := s.ip + 1, status := .halted .haltInstruction } := rfl

theorem no_step_of_ended (hs : s.Ended) (u : State) : step s ≠ .next u := fun h => hs (step_next h).1

/-- In an ended run the host can only answer, and no answer is part of what it may read (R221). -/
theorem Move.diagnostics_of_ended (h : Move s t) (hs : s.Ended) : t.diagnostics = s.diagnostics := by
  cases h with
  | step _ hstep => exact absurd hstep (no_step_of_ended hs t)
  | answerNumber => rfl
  | answerText => rfl

theorem Moves.diagnostics_of_ended (h : Moves s t) (hs : s.Ended) : t.diagnostics = s.diagnostics := by
  induction h with
  | refl => rfl
  | tail t u hmoves hmove ih =>
    have ht : t.Ended := fun hr => hs ((endedStatesAreFinal.2 s t hs hmoves).symm.trans hr)
    exact (hmove.diagnostics_of_ended ht).trans ih

end Ended

/-- Settles O55: HALT changes `IP` and the status alone, and the state it leaves is an ended one. -/
theorem haltResult : Obligations.HaltResult := by
  refine ⟨rfl, fun s => ⟨_, exec_halt, rfl, rfl, ?_, ?_⟩⟩
  · exact no_step_of_ended nofun
  · exact fun u hmoves => hmoves.diagnostics_of_ended nofun

end Sys2Proof.Machine
end

section
/-! PROOFS. The statement of spec/60_exceptions.md: which instructions raise which fault (R210). -/

namespace Sys2Proof.Machine

/-- The raised-by column of R210, for instructions: `i` may raise a fault of kind `k` in `s`. -/
def MayRaise (s : State) (i : Instr) : FaultKind → Prop
  | .boundsError =>
    i ∈ [.load, .store, .printString, .readString, .call, .ret] ∨ s.flags.condition i.mnemonic = true
  | .stackUnderflowError => 0 < i.mnemonic.pops
  | .arithmeticError => (i = .div ∨ i = .mod) ∧ ∃ a rest, s.stack = 0 :: a :: rest
  | .unknownOpcodeError => False
  | .ioFormatError => i = .readInt
  | .stackOverflowError =>
    i.mnemonic ∈ [.push, .const, .dup, .readInt] ∧ s.config.stackCapacity ≠ none

/-- A fault in the answer `r` of instruction `i` in `s` is one that `i` may raise there. -/
def RaisesByTable (s : State) (i : Instr) (r : StepResult) : Prop :=
  ∀ t k, r = .next t → t.status = .faulted k → MayRaise s i k

section RaisesByTable

variable {s b u : State} {i : Instr}

theorem raisesByTable_next (h : ∀ k, u.status ≠ .faulted k) : RaisesByTable s i (.next u) := by
  rintro _ k ⟨⟩ hk
  exact absurd hk (h k)

theorem raisesByTable_completes (hr : s.status = .running) (h : u.status = s.status) :
    RaisesByTable s i (.next u) :=
  raisesByTable_next (by simp [h, hr])

theorem raisesByTable_raise {e : FaultKind} (he : MayRaise s i e) :
    RaisesByTable s i (raise e b) := by
  rintro _ k ⟨⟩ hk
  obtain rfl : e = k := by simpa using hk
  exact he

theorem raisesByTable_needOne {body : Word → List Word → StepResult} (hp : 0 < i.mnemonic.pops)
    (h : ∀ x rest, RaisesByTable s i (body x rest)) : RaisesByTable s i (needOne s body) := by
  intro t k ht hk
  obtain ⟨-, rfl⟩ | ⟨x, rest, -, hbody⟩ := needOne_next ht
  · exact raisesByTable_raise (e := .stackUnderflowError) hp _ k rfl hk
  · exact h x rest t k hbody hk

theorem raisesByTable_needTwo {body : Word → Word → List Word → StepResult}
    (hp : 0 < i.mnemonic.pops)
    (h : ∀ x y rest, s.stack = x :: y :: rest → RaisesByTable s i (body x y rest)) :
    RaisesByTable s i (needTwo s body) := by
  intro t k ht hk
  obtain ⟨-, rfl⟩ | ⟨x, y, rest, hs, hbody⟩ := needTwo_next ht
  · exact raisesByTable_raise (e := .stackUnderflowError) hp _ k rfl hk
  · exact h x y rest hs t k hbody hk

/-- Only a stack with a capacity overflows (R25). -/
theorem raisesByTable_room {body : StepResult} (hi : i.mnemonic ∈ [.push, .const, .dup, .readInt])
    (h : RaisesByTable s i body) : RaisesByTable s i (room s body) := by
  intro t k ht hk
  obtain ⟨hfull, rfl⟩ | ⟨-, hbody⟩ := room_next ht
  · obtain ⟨n, hn, -⟩ := not_hasRoom_iff.1 hfull
    exact raisesByTable_raise (e := .stackOverflowError) ⟨hi, by simp [hn]⟩ _ k rfl hk
  · exact h t k hbody hk

theorem raisesByTable_pushImmediate (hr : s.status = .running) (imm : Word)
    (hi : i.mnemonic ∈ [.push, .const, .dup, .readInt]) : RaisesByTable s i (pushImmediate imm s) :=
  raisesByTable_room hi (raisesByTable_completes hr rfl)

/-- The divisor is the word on top (R134, R135). -/
theorem raisesByTable_arith (hr : s.status = .running) (op : ArithOp) (hp : 0 < i.mnemonic.pops)
    (hi : op.divides = true → i = .div ∨ i = .mod) : RaisesByTable s i (arith op s) := by
  refine raisesByTable_needTwo hp fun b a rest hs => ?_
  split
  · next hz =>
    obtain ⟨hdiv, hzero⟩ := hz
    have hb : b = 0 := BitVec.eq_of_toInt_eq hzero
    exact raisesByTable_raise (e := .arithmeticError) ⟨hi hdiv, a, rest, hb ▸ hs⟩
  · exact raisesByTable_completes hr rfl

/-- A jump that is not taken raises nothing (R170). -/
theorem raisesByTable_jump (hr : s.status = .running) (imm : Word) :
    RaisesByTable s i (jump i.mnemonic imm s) := by
  intro t k ht hk
  obtain ⟨-, rfl⟩ | ⟨hc, -, rfl⟩ | ⟨a, -, -, rfl⟩ := jump_next ht
  · exact raisesByTable_completes hr (by simp) _ k rfl hk
  · exact raisesByTable_raise (e := .boundsError) (.inr hc) _ k rfl hk
  · exact raisesByTable_completes hr (by simp) _ k rfl hk

theorem raisesByTable_printString (hr : s.status = .running) :
    RaisesByTable s .printString (execPrintString s) := by
  have hbounds : MayRaise s .printString .boundsError := .inl (by decide)
  refine raisesByTable_needTwo (by decide) fun len addr rest _ => ?_
  split
  · exact raisesByTable_raise hbounds
  · split
    · exact raisesByTable_raise hbounds
    · exact raisesByTable_completes hr rfl

theorem raisesByTable_readInt (hr : s.status = .running) :
    RaisesByTable s .readInt (execReadInt s) := by
  have hformat : MayRaise s .readInt .ioFormatError := rfl
  refine raisesByTable_room (by decide) ?_
  split
  · exact raisesByTable_completes hr rfl
  · exact raisesByTable_raise hformat
  · split
    · exact raisesByTable_completes hr rfl
    · exact raisesByTable_raise hformat

theorem raisesByTable_readString (hr : s.status = .running) :
    RaisesByTable s .readString (execReadString s) := by
  refine raisesByTable_needTwo (by decide) fun bufLen addr rest _ => ?_
  split
  · exact raisesByTable_completes hr rfl
  · split
    · exact raisesByTable_completes hr rfl
    · split
      · exact raisesByTable_raise (e := .boundsError) (.inl (by decide))
      · exact raisesByTable_completes hr rfl

/-- Each shared operation raises what the table says of the instructions built of it. -/
theorem exec_raisesByTable (hr : s.status = .running) : RaisesByTable s i (exec i s) := by
  cases i with
  | nop => exact raisesByTable_completes hr rfl
  | push imm | const imm => exact raisesByTable_pushImmediate hr imm (by simp [Instr.mnemonic])
  | pop | test | printInt =>
    exact raisesByTable_needOne (by decide) fun _ _ => raisesByTable_completes hr rfl
  | swap | cmp =>
    exact raisesByTable_needTwo (by decide) fun _ _ _ _ => raisesByTable_completes hr rfl
  | dup =>
    exact raisesByTable_needOne (by decide) fun _ _ =>
      raisesByTable_room (by decide) (raisesByTable_completes hr rfl)
  | add | sub | mul => exact raisesByTable_arith hr _ (by decide) nofun
  | div => exact raisesByTable_arith hr _ (by decide) fun _ => .inl rfl
  | mod => exact raisesByTable_arith hr _ (by decide) fun _ => .inr rfl
  | load | call | ret =>
    refine raisesByTable_needOne (by decide) fun x rest => ?_
    split
    · exact raisesByTable_raise (e := .boundsError) (.inl (by decide))
    · exact raisesByTable_completes hr rfl
  | store =>
    refine raisesByTable_needTwo (by decide) fun v a rest _ => ?_
    split
    · exact raisesByTable_raise (e := .boundsError) (.inl (by decide))
    · exact raisesByTable_completes hr rfl
  | jmp imm | jz imm | jnz imm | jbz imm | jaz imm | jl imm | jle imm | je imm | jne imm | ja imm
  | jae imm => exact raisesByTable_jump hr imm
  | printString => exact raisesByTable_printString hr
  | readInt => exact raisesByTable_readInt hr
  | readString => exact raisesByTable_readString hr
  | halt => exact raisesByTable_next fun _ => nofun

end RaisesByTable

/-- Settles O27: the table's column is what every shared operation keeps to. -/
theorem faultKindsByInstruction : Obligations.FaultKindsByInstruction := by
  intro i s t k hr hexec hk
  have hraise := exec_raisesByTable hr t k hexec hk
  cases k <;> exact hraise

end Sys2Proof.Machine
end

section
/-! PROOFS. The statement of spec/70_reset_and_hazards.md: how a step ends a run (R234). -/

namespace Sys2Proof.Machine

/-- Settles O17: an instruction changes the status by a fault, which keeps `IP`, or by being HALT. -/
theorem statusAfterAStep : Obligations.StatusAfterAStep := by
  intro s t hstep
  obtain ⟨hr, ⟨hf, rfl⟩ | ⟨k, -, rfl⟩ | ⟨i, hf, hexec⟩⟩ := step_next hstep
  · exact .inr (.inr (.inl ⟨rfl, fetch_endOfTape.1 hf, rfl⟩))
  · exact .inr (.inr (.inr ⟨k, rfl, rfl⟩))
  · obtain hsame | ⟨k, hk⟩ | rfl := (exec_frames t hexec).status
    · exact .inl (hsame.trans hr)
    · obtain ⟨b, hb, rfl⟩ := exec_faultsCleanly hr t k hexec hk
      exact .inr (.inr (.inr ⟨k, rfl, (hb.untouched k).ip⟩))
    · obtain rfl := Host.Outcome.next.inj (exec_halt.symm.trans hexec)
      exact .inr (.inl ⟨rfl, hf⟩)

end Sys2Proof.Machine
end
